-- ==== Sys2Proof/Word.lean ====
section
/-! DEFINITION. The two word types of the block: the `u8` cell and the 16-bit pattern of an `i16` constant (R7). -/

namespace Sys2Proof

/-- `u8`: one cell of the frame buffer (R7, R11). Bit 0 is the least significant bit. -/
abbrev Byte := BitVec 8

/-- The 16-bit two's-complement pattern of an `i16` (R7). Used for the calibration constants, whose legal values are
exactly the `i16` range (R15); the value of a pattern is its signed reading `toInt`. -/
abbrev I16 := BitVec 16

end Sys2Proof
end

