-- ==== Sys2Proof/Config.lean ====
section
/-! DEFINITION. The implementation parameters fixed at construction (R5, R15, R16, R156), the one configuration fault
(R139), and the values the reset state of this model is built with (notes/assumptions/8). -/

namespace Sys2Proof

/-- `MODE`: the short-frame policy of MAP and DECODE (R5, R104). -/
inductive Mode where
  | lenient
  | strict
deriving DecidableEq, Repr

/-- `ROUND_TIE`: what `round` does at an exact half (R5, R99). -/
inductive RoundTie where
  | halfEven
  | halfAway
  | halfUp
deriving DecidableEq, Repr

/-- `LEN_MAX`: a natural number at least 18, or unbounded (`none`) (R5). -/
structure LenMax where
  bound : Option Nat
  legal : bound.all (18 ≤ ·) = true
deriving DecidableEq, Repr

/-- Does a frame of `n` bytes fit `LEN_MAX` (R120)? -/
def LenMax.admits (l : LenMax) (n : Nat) : Bool :=
  match l.bound with
  | none => true
  | some k => decide (n ≤ k)

/-- A legal configuration (R5, R15, R16). The calibration pair carries the proof that it is not degenerate, as R139
asks, so no block exists for a degenerate pair and F_BATT never divides by zero. -/
structure Config where
  batt0    : I16
  batt100  : I16
  mode     : Mode
  roundTie : RoundTie
  lenMax   : LenMax
  distinct : batt100 ≠ batt0
deriving DecidableEq, Repr

/-- The one configuration fault (R135, R139), raised by the construction of a block and by nothing else. -/
inductive ConfigError where
  /-- `BATT_100 = BATT_0`. Raised by `construct` (Machine/Ops.lean). Safe: no block is built. -/
  | calibrationDegenerate
deriving DecidableEq, Repr

/-- The configuration `State.reset` is built with. `MODE` is the spec's default and `ROUND_TIE` its recommended value
(R5); `BATT_0`, `BATT_100` and `LEN_MAX` are OPEN in R5 and stand here at the illustrative values of
`95_test_vectors.md`. DESIGN CHOICE (notes/assumptions/8): no statement rests on these five values. -/
def Config.default : Config where
  batt0 := 3000
  batt100 := 4200
  mode := .lenient
  roundTie := .halfEven
  lenMax := ⟨some 32, by decide⟩
  distinct := by decide

end Sys2Proof
end

