-- ==== Sys2Proof/Syntax.lean ====
section
/-! DEFINITION. The twenty operations of R56, their classes (R55), the names of the twelve field operations' outputs
(R137), and a request: one operation code with its operand values (R57). -/

namespace Sys2Proof

/-- The operations of R56, one constructor per row of `spec/opcode_table.json`. LOAD and DECODE carry a byte sequence,
RDI16 and RDU8 a natural number; the other operations take their operands from the state (R57). -/
inductive Instr where
  | clear
  | load (r : List Byte)
  | descr
  | map
  | decode (r : List Byte)
  | rdi16 (offset : Nat)
  | rdu8 (offset : Nat)
  | hVer
  | hProd
  | fPh
  | fEc
  | fSalt
  | fTds
  | fOrp
  | fCl
  | fTemp
  | fBatt
  | hHold
  | hBklt
  | dstep
deriving DecidableEq, Repr

/-- The three classes of R55: what a host may ask for, what MAP performs, what DESCR iterates. -/
inductive OpClass where
  | host
  | field
  | internal
deriving DecidableEq, Repr

/-- The seven host commands by name (R56, R124), as a `WrongPhase` refusal reports them. -/
inductive HostCommand where
  | clear
  | load
  | descr
  | map
  | decode
  | rdi16
  | rdu8
deriving DecidableEq, Repr

/-- The names a DecodeError carries (R137): the sensor name for the eight sensors, spelled as R59 spells it, and the
operation mnemonic for the four other outputs. -/
inductive FieldName where
  | H_VER
  | H_PROD
  | pH
  | EC
  | salt
  | TDS
  | ORP
  | cloro
  | temperature
  | battery
  | H_HOLD
  | H_BKLT
deriving DecidableEq, Repr

/-- Who asks for an operation (R55, R56): the host, or the block's own sequencing (DESCR asks for DSTEP, MAP for the
field operations). DESIGN CHOICE (notes/assumptions/3). -/
inductive Issuer where
  | host
  | sequencer
deriving DecidableEq, Repr

/-- One request: an 8-bit operation code and the two operand values an operation may carry (R57). How the operands
travel to the block is not specified; a model takes them as values (U19). DESIGN CHOICE (notes/assumptions/4): an
operation ignores an operand it does not carry. -/
structure Request where
  issuer : Issuer
  code   : Byte
  frame  : List Byte := []
  offset : Nat := 0
deriving DecidableEq, Repr

end Sys2Proof
end

