-- ==== Sys2Proof/WellFormed.lean ====
section
/-! DEFINITION. Well-formedness of an operation against a configuration (R57: `0 <= n <= LEN_MAX`) and of a request
against the code list (R56, R58). Neither is a precondition of running: the block answers an over-long frame and an
unknown code with a refusal (R141). -/

namespace Sys2Proof

/-- The operand range of R57: the frame of a LOAD or a DECODE is at most `LEN_MAX` bytes. Every other operand is
unrestricted (R31: an offset is any natural number). -/
def Instr.wf (c : Config) : Instr → Bool
  | .load r => c.lenMax.admits r.length
  | .decode r => c.lenMax.admits r.length
  | .clear => true
  | .descr => true
  | .map => true
  | .rdi16 _ => true
  | .rdu8 _ => true
  | .hVer => true
  | .hProd => true
  | .fPh => true
  | .fEc => true
  | .fSalt => true
  | .fTds => true
  | .fOrp => true
  | .fCl => true
  | .fTemp => true
  | .fBatt => true
  | .hHold => true
  | .hBklt => true
  | .dstep => true

/-- The host command codes of R56. -/
def hostCodes : List Byte := [0x00, 0x01, 0x02, 0x03, 0x04, 0x05, 0x06]

/-- The field and internal operation codes of R56. -/
def innerCodes : List Byte := [0x10, 0x11, 0x12, 0x13, 0x14, 0x15, 0x16, 0x17, 0x18, 0x19, 0x1A, 0x1B, 0x20]

/-- The codes whose operation carries a byte sequence (R57). -/
def frameCodes : List Byte := [0x01, 0x04]

/-- The codes whose operation carries an offset (R57). -/
def offsetCodes : List Byte := [0x05, 0x06]

/-- A request the block's own encoding produces: its code is one its issuer may ask for (R58), and it carries no operand
but the one its operation takes (R57). -/
def Request.wf (q : Request) : Bool :=
  (match q.issuer with
    | .host => hostCodes.contains q.code
    | .sequencer => innerCodes.contains q.code)
  && (frameCodes.contains q.code || q.frame.isEmpty)
  && (offsetCodes.contains q.code || q.offset == 0)

end Sys2Proof
end

