-- ==== Sys2Proof/Decode.lean ====
section
/-! DEFINITION. The decoder of an operation code with its operand values, total on every code and rejecting by name
(R56, R57, R58), and after it the encoder, written from the same list (R56). -/

namespace Sys2Proof

/-- The class of an operation (R55, R56). -/
def Instr.opClass : Instr → OpClass
  | .clear => .host
  | .load _ => .host
  | .descr => .host
  | .map => .host
  | .decode _ => .host
  | .rdi16 _ => .host
  | .rdu8 _ => .host
  | .hVer => .field
  | .hProd => .field
  | .fPh => .field
  | .fEc => .field
  | .fSalt => .field
  | .fTds => .field
  | .fOrp => .field
  | .fCl => .field
  | .fTemp => .field
  | .fBatt => .field
  | .hHold => .field
  | .hBklt => .field
  | .dstep => .internal

/-- Why a request stands for no operation (R58). Both are answered with `UnknownCommand` (R141). -/
inductive Reject where
  /-- The code is not in R56. Raised by `decode`. Safe: the spec refuses it. -/
  | unassignedCode (code : Byte)
  /-- A host asked for a class 1 or class 2 code. Raised by `decodeRequest`. Safe: the spec refuses it. -/
  | notHostCommand (code : Byte)
deriving DecidableEq, Repr

/-- `OP[7:4]`, the class field of a code (R57). -/
def codeClass (op : Byte) : Nat := (op.extractLsb' 4 4).toNat

/-- `OP[3:0]`, the number field of a code; in class 1 the field selector `FSEL` (R57). -/
def codeNum (op : Byte) : Nat := (op.extractLsb' 0 4).toNat

/-- The operation of a code, given its operand values (R56, R57): a frame and an offset, of which it takes the one it
carries. `none` for every code not in R56 (R58). -/
def operationOf (op : Byte) : Option (List Byte → Nat → Instr) :=
  match codeClass op, codeNum op with
  | 0, 0 => some fun _ _ => .clear
  | 0, 1 => some fun r _ => .load r
  | 0, 2 => some fun _ _ => .descr
  | 0, 3 => some fun _ _ => .map
  | 0, 4 => some fun r _ => .decode r
  | 0, 5 => some fun _ o => .rdi16 o
  | 0, 6 => some fun _ o => .rdu8 o
  | 1, 0 => some fun _ _ => .hVer
  | 1, 1 => some fun _ _ => .hProd
  | 1, 2 => some fun _ _ => .fPh
  | 1, 3 => some fun _ _ => .fEc
  | 1, 4 => some fun _ _ => .fSalt
  | 1, 5 => some fun _ _ => .fTds
  | 1, 6 => some fun _ _ => .fOrp
  | 1, 7 => some fun _ _ => .fCl
  | 1, 8 => some fun _ _ => .fTemp
  | 1, 9 => some fun _ _ => .fBatt
  | 1, 10 => some fun _ _ => .hHold
  | 1, 11 => some fun _ _ => .hBklt
  | 2, 0 => some fun _ _ => .dstep
  | _, _ => none

/-- The operation a request names (R56, R57), whoever issues it. -/
def decode (q : Request) : Except Reject Instr :=
  match operationOf q.code with
  | some f => .ok (f q.frame q.offset)
  | none => .error (.unassignedCode q.code)

/-- The operation a request may have the block perform: a host gets the seven host commands only (R55, R58). -/
def decodeRequest (q : Request) : Except Reject Instr :=
  match decode q with
  | .error e => .error e
  | .ok i =>
    match q.issuer, i.opClass with
    | .host, .host => .ok i
    | .host, .field => .error (.notHostCommand q.code)
    | .host, .internal => .error (.notHostCommand q.code)
    | .sequencer, _ => .ok i

/-- The issuer a code's class calls for: class 0 is the host's, the others the block's own sequencing (R57). -/
def issuerOf (op : Byte) : Issuer :=
  if codeClass op = 0 then .host else .sequencer

/-- The request a bare code stands for, its operands zero (an empty frame, offset 0). -/
def bareRequest (op : Byte) : Request := { issuer := issuerOf op, code := op }

/-- What this decoder reads from an operation code given as the opcode table numbers its bits; every row of the table is
one byte (R57). -/
def decodeTableWord (nbits w : Nat) : Option Instr :=
  if nbits = 8 ∧ w < 256 then (decode (bareRequest (BitVec.ofNat 8 w))).toOption else none

/-- The code of each operation (R56). -/
def codeOf : Instr → Byte
  | .clear => 0x00
  | .load _ => 0x01
  | .descr => 0x02
  | .map => 0x03
  | .decode _ => 0x04
  | .rdi16 _ => 0x05
  | .rdu8 _ => 0x06
  | .hVer => 0x10
  | .hProd => 0x11
  | .fPh => 0x12
  | .fEc => 0x13
  | .fSalt => 0x14
  | .fTds => 0x15
  | .fOrp => 0x16
  | .fCl => 0x17
  | .fTemp => 0x18
  | .fBatt => 0x19
  | .hHold => 0x1A
  | .hBklt => 0x1B
  | .dstep => 0x20

/-- The byte-sequence operand of an operation (R57); empty where it carries none. -/
def frameOf : Instr → List Byte
  | .load r => r
  | .decode r => r
  | .clear | .descr | .map | .rdi16 _ | .rdu8 _ | .hVer | .hProd | .fPh | .fEc | .fSalt | .fTds | .fOrp | .fCl | .fTemp
  | .fBatt | .hHold | .hBklt | .dstep => []

/-- The offset operand of an operation (R57); zero where it carries none. -/
def offsetOf : Instr → Nat
  | .rdi16 o => o
  | .rdu8 o => o
  | .clear | .load _ | .descr | .map | .decode _ | .hVer | .hProd | .fPh | .fEc | .fSalt | .fTds | .fOrp | .fCl | .fTemp
  | .fBatt | .hHold | .hBklt | .dstep => 0

/-- The issuer an operation's class calls for (R55). -/
def issuerOfClass : OpClass → Issuer
  | .host => .host
  | .field => .sequencer
  | .internal => .sequencer

/-- The request of an operation: its code and its operand, issued by whoever may issue it (R55, R56, R57). -/
def encode (i : Instr) : Request :=
  { issuer := issuerOfClass i.opClass, code := codeOf i, frame := frameOf i, offset := offsetOf i }

end Sys2Proof
end

