-- ==== Sys2Proof/Machine/State.lean ====
section
/-! DEFINITION. The state of one block (R10 to R16), what a command answers with (R105, R124, R135), and the reset
state (R23, R155). -/

namespace Sys2Proof.Machine

/-- The phase tag, the block's one flag: what the frame buffer holds (R13). -/
inductive Phase where
  | empty
  | raw
  | descrambled
deriving DecidableEq, Repr

/-- The cells of the frame buffer (R11, R30) as address and byte pairs. The canonical form is `Memory.wf`
(Machine/Ops.lean). -/
abbrev Memory := List Host.Cell

/-- What an address that is not listed reads as. DESIGN CHOICE (notes/assumptions/6): the spec leaves the cells
unspecified after reset and makes sure that no rule reads one (R23). -/
def unlistedByte : Byte := 0

/-- A field-level failure: the field and its offset in the layout (R137). -/
structure DecodeError where
  field  : FieldName
  offset : Nat
deriving DecidableEq, Repr

/-- Part (a) of the Snapshot (R105): the mapping from sensor name to value, one optional place per name of the closed
set; `none` is absence, never a zero (R104, R162). -/
structure Sensors where
  battery     : Option Int
  EC          : Option Int
  salt        : Option Rat
  TDS         : Option Int
  cloro       : Option Rat
  pH          : Option Rat
  ORP         : Option Rat
  temperature : Option Rat
deriving DecidableEq, Repr

/-- Part (b) of the Snapshot (R105): the four outputs that are no sensors. -/
structure Aux where
  ver  : Option Byte
  prod : Option Byte
  hold : Option Byte
  bklt : Option Byte
deriving DecidableEq, Repr

/-- The response of MAP (R105): sensors, auxiliary outputs, and the DecodeErrors of the absent outputs. -/
structure Snapshot where
  sensors : Sensors
  aux     : Aux
  errors  : List DecodeError
deriving DecidableEq, Repr

/-- What `ok` carries: per host command (R124) and per field operation (R51, R56). -/
inductive Result where
  | done
  | i16 (v : Int)
  | u8 (v : Byte)
  | int (v : Int)
  | rat (v : Rat)
  | snapshot (v : Snapshot)
deriving DecidableEq, Repr

/-- The error kinds a command answers with (R135). Taking one is `Machine.raise` (Machine/Ops.lean). -/
inductive CoreFault where
  | outOfRange (offset : Nat)
  | decodeError (e : DecodeError)
deriving DecidableEq, Repr

/-- The refusals a command answers with (R135, R141). They are the block's own answers, and the block goes on. -/
inductive CommandRefusal where
  | wrongPhase (command : HostCommand) (phase : Phase)
  | frameTooLong (length : Nat)
  | unknownCommand (code : Byte)
deriving DecidableEq, Repr

/-- One answer: ok, fault or refusal (R7, R124). -/
inductive Response where
  | ok (r : Result)
  | fault (f : CoreFault)
  | refused (r : CommandRefusal)
deriving DecidableEq, Repr

/-- One block instance and the host's side of its command interface.
`cfg`: the configuration, never written by an operation (R15, R16). `mem`, `len`: the frame buffer `FB` and `LEN` (R11,
R12). `phase`: `PHASE` (R13). `idx`: `IDX`, `none` while it is not live (R14). `response`: the answer to the latest
command, the block's output; nothing in the block reads it (R124; notes/assumptions/1). `script`: the requests not yet
given, the next one first (R22, R126; notes/assumptions/2). -/
structure State where
  cfg      : Config
  mem      : Memory
  len      : Nat
  phase    : Phase
  idx      : Option Nat
  response : Option Response
  script   : List Request
deriving DecidableEq, Repr

/-- Why the model stops: not one of the block's own error kinds, which are responses (`CoreFault`). -/
inductive Fault where
  /-- Raised by DSTEP when `IDX` is not live or not in `1 .. LEN-1`: R65 requires that range and gives the step no
  effect outside it, and no host can ask for it. Safe: the model stops where the spec gives no behaviour
  (notes/assumptions/10). -/
  | pairIndexNotLive
deriving DecidableEq, Repr

/-- Why the model gives an operation no meaning. -/
inductive Refusal where
  /-- An operation that has no meaning yet. Raised by an arm of `exec` only; no arm raises it. Safe. -/
  | notModelled (mnemonic : String)
deriving DecidableEq, Repr

/-- A block right after reset, of any configuration (R23, R155): the configuration is what it was built with. -/
def State.resetOf (c : Config) : State where
  cfg := c
  mem := []
  len := 0
  phase := .empty
  idx := none
  response := none
  script := []

/-- The machine right after reset (R23, R155), of the configuration named in notes/assumptions/8. -/
def State.reset : State := State.resetOf Config.default

end Sys2Proof.Machine
end

