-- ==== Sys2Proof/Machine/Ops.lean ====
section
/-! DEFINITION. The shared operations: the frame buffer's cells, loading and dropping a frame, answering a command, and
the block's one way to end with an error (R143). -/

namespace Sys2Proof.Machine

/-- The canonical form: addresses strictly rising, no cell listed with the byte an unlisted address reads as. -/
abbrev Memory.wf (m : Memory) : Prop :=
  m.Pairwise (fun c d => c.1 < d.1) ∧ ∀ c ∈ m, c.2 ≠ unlistedByte

/-- `FB[a]` (R7). -/
def Memory.read : Memory → Nat → Byte
  | [], _ => unlistedByte
  | c :: m, a => if a = c.1 then c.2 else Memory.read m a

/-- The memory without its entries at `a`. -/
def Memory.erase : Memory → Nat → Memory
  | [], _ => []
  | c :: m, a => if a = c.1 then Memory.erase m a else c :: Memory.erase m a

/-- The memory with a cell put where its address belongs. -/
def Memory.insert : Memory → Host.Cell → Memory
  | [], d => [d]
  | c :: m, d => if d.1 < c.1 then d :: c :: m else c :: Memory.insert m d

/-- `FB[a] <- v` (R7), in canonical form. -/
def Memory.write (m : Memory) (a : Nat) (v : Byte) : Memory :=
  if v = unlistedByte then m.erase a else (m.erase a).insert (a, v)

/-- `MemRead(addr, n)` (R7, R33): `n` bytes from `addr` on, the byte at the lower address the more significant. -/
def Memory.readN (m : Memory) (addr : Nat) : Nat → Nat
  | 0 => 0
  | n + 1 => 256 * Memory.readN m addr n + (m.read (addr + n)).toNat

/-- The byte sequence `r` written to consecutive cells from `k` on, one byte at a time (R120). -/
def Memory.store (m : Memory) (k : Nat) : List Byte → Memory
  | [] => m
  | b :: r => Memory.store (m.write k b) (k + 1) r

/-- The frame in the buffer as a byte sequence: `FB[0 .. LEN-1]` (R10). -/
def State.frame (s : State) : List Byte :=
  (List.range s.len).map s.mem.read

/-- The command ends and answers; the answer is its only output (R124). -/
def State.answer (r : Response) (s : State) : State :=
  { s with response := some r }

/-- Taking an error (R143): the command ends and answers with it; nothing is saved, no mode changes, control goes
nowhere, and the block is ready for the next command. -/
def raise (f : CoreFault) (s : State) : Host.Outcome State Fault Refusal :=
  .next (s.answer (.fault f))

/-- Refusing a command (R141): no state changes, the refusal is the response, and it is not sticky. There is no return
from either (R144). -/
def refuse (r : CommandRefusal) (s : State) : Host.Outcome State Fault Refusal :=
  .next (s.answer (.refused r))

/-- The answer to a request that stands for no operation (R58, R141). -/
def refuseUnknown (e : Reject) (s : State) : Host.Outcome State Fault Refusal :=
  match e with
  | .unassignedCode c => refuse (.unknownCommand c) s
  | .notHostCommand c => refuse (.unknownCommand c) s

/-- The frame `r` put into the buffer (R120). What the buffer held before is gone: cells at `LEN` and above are not
addressable and are dropped (U12; notes/assumptions/7). -/
def State.loadFrame (r : List Byte) (s : State) : State :=
  { s with len := r.length, mem := Memory.store [] 0 r, phase := .raw }

/-- The frame dropped (R123). The cells become unaddressable and are dropped with it (U12; notes/assumptions/7). -/
def State.dropFrame (s : State) : State :=
  { s with len := 0, mem := [], phase := .empty }

/-- Building a block from the constants supplied at construction time: a degenerate calibration pair builds none (R139,
R156); a built block starts in the reset state. -/
def construct (batt0 batt100 : I16) (mode : Mode) (tie : RoundTie) (lenMax : LenMax) :
    Except ConfigError State :=
  if h : batt100 ≠ batt0 then .ok (State.resetOf ⟨batt0, batt100, mode, tie, lenMax, h⟩) else .error .calibrationDegenerate

end Sys2Proof.Machine
end

