-- ==== Sys2Proof/Machine/Flags.lean ====
section
/-! DEFINITION. The phase tag, the block's only flag (R13): which command it admits. No operation has another flag. -/

namespace Sys2Proof.Machine

/-- The middle column of R13's table: the phases that admit a command. -/
def admits : HostCommand → Phase → Bool
  | .load, _ => true
  | .clear, _ => true
  | .decode, _ => true
  | .descr, .raw => true
  | .descr, .empty => false
  | .descr, .descrambled => false
  | .map, .descrambled => true
  | .map, .empty => false
  | .map, .raw => false
  | .rdi16, .raw => true
  | .rdi16, .descrambled => true
  | .rdi16, .empty => false
  | .rdu8, .raw => true
  | .rdu8, .descrambled => true
  | .rdu8, .empty => false

/-- A command's phase check, before its operand check and the operation itself (R142): `WrongPhase`, carrying the command
and the phase (R135), or the rest of the command. -/
def whenAdmitted (c : HostCommand) (s : State) (k : State → Host.Outcome State Fault Refusal) :
    Host.Outcome State Fault Refusal :=
  if admits c s.phase then k s else refuse (.wrongPhase c s.phase) s

/-- The operand check of LOAD and DECODE (R120, R122, R142): `FrameTooLong`, carrying the length, or the rest of the
command. -/
def whenFits (r : List Byte) (s : State) (k : State → Host.Outcome State Fault Refusal) :
    Host.Outcome State Fault Refusal :=
  if s.cfg.lenMax.admits r.length then k s else refuse (.frameTooLong r.length) s

end Sys2Proof.Machine
end

