-- ==== Sys2Proof/Machine/Operands.lean ====
section
/-! DEFINITION. Operand reads: the two read primitives with their range checks (R81, R85), and a field operation's read,
which turns a failed one into a DecodeError (R137). -/

namespace Sys2Proof.Machine

/-- `sext_16` (R7): the `i16` of a `u16`. -/
def sext16 (v : Nat) : Int :=
  if v < 32768 then v else (v : Int) - 65536

/-- The read of R81: two bytes, big-endian, two's complement; the error is the offset asked for (R136). The comparison is
on natural numbers (R31). -/
def readI16 (offset : Nat) (s : State) : Except Nat Int :=
  if offset + 1 ≥ s.len then .error offset else .ok (sext16 (s.mem.readN offset 2))

/-- The read of R85: one unsigned byte; the error is the offset asked for (R136). -/
def readU8 (offset : Nat) (s : State) : Except Nat Byte :=
  if offset ≥ s.len then .error offset else .ok (s.mem.read offset)

/-- A read's failure inside a field operation becomes a DecodeError naming the field and the offset (R86, R137). -/
def asField {α : Type} (f : FieldName) : Except Nat α → Except DecodeError α
  | .ok v => .ok v
  | .error o => .error ⟨f, o⟩

/-- The operand of a two-byte field (R52). -/
def fieldI16 (f : FieldName) (offset : Nat) (s : State) : Except DecodeError Int :=
  asField f (readI16 offset s)

/-- The operand of a one-byte field (R52). -/
def fieldU8 (f : FieldName) (offset : Nat) (s : State) : Except DecodeError Byte :=
  asField f (readU8 offset s)

/-- The DecodeError of an output that is absent. -/
def errorOf {α : Type} : Except DecodeError α → Option DecodeError
  | .ok _ => none
  | .error e => some e

/-- A read command's answer: the value, or OutOfRange (R86). -/
def answerRead {α : Type} (result : α → Result) (v : Except Nat α) (s : State) : Host.Outcome State Fault Refusal :=
  match v with
  | .ok v => .next (s.answer (.ok (result v)))
  | .error o => raise (.outOfRange o) s

/-- A field operation's answer: the value, or the DecodeError (R137). A field operation writes no state. -/
def answerField {α : Type} (result : α → Result) (v : Except DecodeError α) (s : State) :
    Host.Outcome State Fault Refusal :=
  match v with
  | .ok v => .next (s.answer (.ok (result v)))
  | .error e => raise (.decodeError e) s

end Sys2Proof.Machine
end

