-- ==== Sys2Proof/Machine/Extractor.lean ====
section
/-! DEFINITION. The field extractor's host commands (41_field_extractor.md): RDI16 and RDU8. -/

namespace Sys2Proof.Machine

/-- RDI16 (R80, R81). -/
def execRdi16 (offset : Nat) (s : State) : Host.Outcome State Fault Refusal :=
  whenAdmitted .rdi16 s fun s => answerRead .i16 (readI16 offset s) s

/-- RDU8 (R80, R85). -/
def execRdu8 (offset : Nat) (s : State) : Host.Outcome State Fault Refusal :=
  whenAdmitted .rdu8 s fun s => answerRead .u8 (readU8 offset s) s

end Sys2Proof.Machine
end

