-- ==== Sys2Proof/Machine/Descrambler.lean ====
section
/-! DEFINITION. The frame descrambler (40_descrambler.md): the pair step DSTEP, the pass DESCR over the buffer in place,
and the same pass as a pure function on byte sequences (R65 to R69). -/

namespace Sys2Proof.Machine

/-- `E2O(v)` (R7): the even bits of `v` moved to the odd positions. -/
def evenToOdd (v : Byte) : Byte := (v &&& 0x55) <<< 1

/-- `O2E(v)` (R7): the odd bits of `v` moved to the even positions. -/
def oddToEven (v : Byte) : Byte := (v &&& 0xAA) >>> 1

/-- The new `FB[i]` of a pair step: `0xFF - (hibit1 | lobit)` (R65). -/
def newUpper (hi lo : Byte) : Byte := 0xFF - (evenToOdd hi ||| oddToEven lo)

/-- The new `FB[i-1]` of a pair step: `0xFF - (hibit | lobit1)` (R65). -/
def newLower (hi lo : Byte) : Byte := 0xFF - (evenToOdd lo ||| oddToEven hi)

/-- One pair step on the cells `i` and `i-1` (R65): both reads before both writes (R40, R159). -/
def pairStep (m : Memory) (i : Nat) : Memory :=
  let hi := m.read i
  let lo := m.read (i - 1)
  (m.write i (newUpper hi lo)).write (i - 1) (newLower hi lo)

/-- The values `IDX` takes in a pass over `n` bytes (R14, R66): `n-1` down to `1`; none when `n < 2`. -/
def pairIndices : Nat → List Nat
  | 0 => []
  | 1 => []
  | n + 2 => (n + 1) :: pairIndices (n + 1)

/-- DSTEP at the pair `(i-1, i)`: writes `FB[i]` and `FB[i-1]`, nothing else (R65). -/
def State.pairStep (i : Nat) (s : State) : State :=
  { s with mem := Machine.pairStep s.mem i }

/-- One round of the loop of R68: `IDX` set, then DSTEP at it. -/
def descrRound (s : State) (i : Nat) : State :=
  State.pairStep i { s with idx := some i }

/-- The pass of R68: the pair steps in place, one after another in descending order (R40, R158); afterwards `IDX` is not
live (R14) and the buffer is descrambled. -/
def State.descrambleBuffer (s : State) : State :=
  { (pairIndices s.len).foldl descrRound s with idx := none, phase := .descrambled }

/-- A pair step on a byte sequence (R68). -/
def pairStepOn (b : List Byte) (i : Nat) : List Byte :=
  let hi := b.getD i unlistedByte
  let lo := b.getD (i - 1) unlistedByte
  (b.set i (newUpper hi lo)).set (i - 1) (newLower hi lo)

/-- `descramble(r)` (R59, R60, R68): the pass as a pure function. No meaning calls it; claims speak of it. -/
def descramble (r : List Byte) : List Byte :=
  (pairIndices r.length).foldl pairStepOn r

/-- DSTEP (R65), at the pair index `IDX`, which must be live and in `1 .. LEN-1`. -/
def execDstep (s : State) : Host.Outcome State Fault Refusal :=
  match s.idx with
  | none => .fault .pairIndexNotLive
  | some i =>
    if 1 ≤ i ∧ i < s.len then .next ((State.pairStep i s).answer (.ok .done)) else .fault .pairIndexNotLive

/-- DESCR (R68): admitted in phase RAW only; it cannot fail (R74). -/
def execDescr (s : State) : Host.Outcome State Fault Refusal :=
  whenAdmitted .descr s fun s => .next (s.descrambleBuffer.answer (.ok .done))

end Sys2Proof.Machine
end

