-- ==== Sys2Proof/Machine/Numbers.lean ====
section
/-! DEFINITION. The exact arithmetic of the scaling rules (R8, R92 to R102): rationals and integers, no wrap-around, no
integer division, and no saturation but the two written clamps. -/

namespace Sys2Proof.Machine

/-- `clamp(v, lo, hi)` (R7). -/
def clamp (v lo hi : Int) : Int :=
  if v < lo then lo else if v > hi then hi else v

/-- `round(q)` (R99): the integer nearest `q`; at an exact half `ROUND_TIE` decides. The quotient below is the floor of
`q` and the remainder its fraction, in units of `1 / q.den`. -/
def roundRat (tie : RoundTie) (q : Rat) : Int :=
  let below := q.num / (q.den : Int)
  let twice := 2 * (q.num % (q.den : Int))
  if twice < q.den then below
  else if (q.den : Int) < twice then below + 1
  else match tie with
    | .halfEven => if below % 2 = 0 then below else below + 1
    | .halfUp => below + 1
    | .halfAway => if q.num < 0 then below else below + 1

/-- pH: `raw / 100` (R92). -/
def scalePh (raw : Int) : Rat := mkRat raw 100

/-- salt: `raw * 0.55`, the exact rational `raw * 11 / 20` (R94, R106). -/
def scaleSalt (raw : Int) : Rat := mkRat (raw * 11) 20

/-- ORP: `raw / 1000` (R96). The divisor is inferred from one example of the source (notes/assumptions/13). -/
def scaleOrp (raw : Int) : Rat := mkRat raw 1000

/-- cloro: `0` if `raw < 0`, else `raw / 10` (R97). -/
def scaleCl (raw : Int) : Rat := if raw < 0 then 0 else mkRat raw 10

/-- temperature: `raw / 10` (R98). -/
def scaleTemp (raw : Int) : Rat := mkRat raw 10

/-- `q` of R99: `100 * (raw - BATT_0) / (BATT_100 - BATT_0)`, exact. The divisor is not zero (R15), and may be negative
(R100). -/
def battQuotient (c : Config) (raw : Int) : Rat :=
  Rat.divInt (100 * (raw - c.batt0.toInt)) (c.batt100.toInt - c.batt0.toInt)

/-- battery: subtract, multiply by 100, divide, round, then clamp (R99). -/
def scaleBatt (c : Config) (raw : Int) : Int :=
  clamp (roundRat c.roundTie (battQuotient c raw)) 0 100

/-- The hold field: the high nibble of the status byte (R48, R101). -/
def holdBits (status : Byte) : Byte := status >>> 4

/-- The backlight flag: bit 3 of the status byte, by the source's expression (R48, R102). -/
def backlightBit (status : Byte) : Byte := (status &&& 0x0F) >>> 3

end Sys2Proof.Machine
end

