-- ==== Sys2Proof/Machine/Mapper.lean ====
section
/-! DEFINITION. The sensor mapper (42_sensor_mapper.md): the twelve field operations and MAP. A field operation reads the
buffer as it stands; that it is descrambled is MAP's check (R103; notes/assumptions/11). -/

namespace Sys2Proof.Machine

/-- H_VER's output: `FB[1]` (R90). -/
def valueVer (s : State) : Except DecodeError Byte := fieldU8 .H_VER 1 s

/-- H_PROD's output: `FB[2]` (R91). -/
def valueProd (s : State) : Except DecodeError Byte := fieldU8 .H_PROD 2 s

/-- F_PH's output: `raw / 100` at offset 3 (R92). -/
def valuePh (s : State) : Except DecodeError Rat := (fieldI16 .pH 3 s).map scalePh

/-- F_EC's output: `raw` at offset 5 (R93). -/
def valueEc (s : State) : Except DecodeError Int := fieldI16 .EC 5 s

/-- F_SALT's output, from the EC bytes (R94). -/
def valueSalt (s : State) : Except DecodeError Rat := (fieldI16 .salt 5 s).map scaleSalt

/-- F_TDS's output: `raw` at offset 7 (R95). -/
def valueTds (s : State) : Except DecodeError Int := fieldI16 .TDS 7 s

/-- F_ORP's output: `raw / 1000` at offset 9 (R96). -/
def valueOrp (s : State) : Except DecodeError Rat := (fieldI16 .ORP 9 s).map scaleOrp

/-- F_CL's output at offset 11 (R97). -/
def valueCl (s : State) : Except DecodeError Rat := (fieldI16 .cloro 11 s).map scaleCl

/-- F_TEMP's output: `raw / 10` at offset 13 (R98). -/
def valueTemp (s : State) : Except DecodeError Rat := (fieldI16 .temperature 13 s).map scaleTemp

/-- F_BATT's output at offset 15 (R99). -/
def valueBatt (s : State) : Except DecodeError Int := (fieldI16 .battery 15 s).map (scaleBatt s.cfg)

/-- H_HOLD's output: the high nibble of `FB[17]` (R101). -/
def valueHold (s : State) : Except DecodeError Byte := (fieldU8 .H_HOLD 17 s).map holdBits

/-- H_BKLT's output: bit 3 of `FB[17]` (R102). -/
def valueBklt (s : State) : Except DecodeError Byte := (fieldU8 .H_BKLT 17 s).map backlightBit

/-- H_VER (R90). -/
def execHVer (s : State) : Host.Outcome State Fault Refusal := answerField .u8 (valueVer s) s

/-- H_PROD (R91). -/
def execHProd (s : State) : Host.Outcome State Fault Refusal := answerField .u8 (valueProd s) s

/-- F_PH (R92). -/
def execFPh (s : State) : Host.Outcome State Fault Refusal := answerField .rat (valuePh s) s

/-- F_EC (R93). -/
def execFEc (s : State) : Host.Outcome State Fault Refusal := answerField .int (valueEc s) s

/-- F_SALT (R94). -/
def execFSalt (s : State) : Host.Outcome State Fault Refusal := answerField .rat (valueSalt s) s

/-- F_TDS (R95). -/
def execFTds (s : State) : Host.Outcome State Fault Refusal := answerField .int (valueTds s) s

/-- F_ORP (R96). -/
def execFOrp (s : State) : Host.Outcome State Fault Refusal := answerField .rat (valueOrp s) s

/-- F_CL (R97). -/
def execFCl (s : State) : Host.Outcome State Fault Refusal := answerField .rat (valueCl s) s

/-- F_TEMP (R98). -/
def execFTemp (s : State) : Host.Outcome State Fault Refusal := answerField .rat (valueTemp s) s

/-- F_BATT (R99, R100). -/
def execFBatt (s : State) : Host.Outcome State Fault Refusal := answerField .int (valueBatt s) s

/-- H_HOLD (R101). -/
def execHHold (s : State) : Host.Outcome State Fault Refusal := answerField .u8 (valueHold s) s

/-- H_BKLT (R102). -/
def execHBklt (s : State) : Host.Outcome State Fault Refusal := answerField .u8 (valueBklt s) s

/-- The DecodeErrors of the absent outputs, in the order of R103. -/
def decodeErrors (s : State) : List DecodeError :=
  [ errorOf (valueVer s), errorOf (valueProd s), errorOf (valuePh s), errorOf (valueEc s), errorOf (valueSalt s),
    errorOf (valueTds s), errorOf (valueOrp s), errorOf (valueCl s), errorOf (valueTemp s), errorOf (valueBatt s),
    errorOf (valueHold s), errorOf (valueBklt s) ].reduceOption

/-- The Snapshot (R105): an output whose operation failed is absent, every other is present (R104). -/
def snapshotOf (s : State) : Snapshot where
  sensors :=
    { battery := (valueBatt s).toOption
      EC := (valueEc s).toOption
      salt := (valueSalt s).toOption
      TDS := (valueTds s).toOption
      cloro := (valueCl s).toOption
      pH := (valuePh s).toOption
      ORP := (valueOrp s).toOption
      temperature := (valueTemp s).toOption }
  aux :=
    { ver := (valueVer s).toOption
      prod := (valueProd s).toOption
      hold := (valueHold s).toOption
      bklt := (valueBklt s).toOption }
  errors := decodeErrors s

/-- MAP's answer (R103, R104): in STRICT mode the first DecodeError in the order of R103, if there is one; otherwise the
Snapshot. -/
def mapResponse (s : State) : Response :=
  match s.cfg.mode, decodeErrors s with
  | .strict, e :: _ => .fault (.decodeError e)
  | .strict, [] => .ok (.snapshot (snapshotOf s))
  | .lenient, _ => .ok (.snapshot (snapshotOf s))

/-- MAP (R103): admitted in phase DESCRAMBLED only. -/
def execMap (s : State) : Host.Outcome State Fault Refusal :=
  whenAdmitted .map s fun s => .next (s.answer (mapResponse s))

end Sys2Proof.Machine
end

