-- ==== Sys2Proof/Machine/HostCommands.lean ====
section
/-! DEFINITION. The commands that carry a frame in and drop it (43_host_commands.md): LOAD, DECODE, CLEAR. -/

namespace Sys2Proof.Machine

/-- LOAD (R120). -/
def execLoad (r : List Byte) (s : State) : Host.Outcome State Fault Refusal :=
  whenAdmitted .load s fun s => whenFits r s fun s => .next ((s.loadFrame r).answer (.ok .done))

/-- DECODE (R122): LOAD, DESCR and MAP as one command. The buffer stays loaded and descrambled also when MAP answers with
a DecodeError. -/
def execDecode (r : List Byte) (s : State) : Host.Outcome State Fault Refusal :=
  whenAdmitted .decode s fun s => whenFits r s fun s =>
    let t := (s.loadFrame r).descrambleBuffer
    .next (t.answer (mapResponse t))

/-- CLEAR (R123). -/
def execClear (s : State) : Host.Outcome State Fault Refusal :=
  whenAdmitted .clear s fun s => .next (s.dropFrame.answer (.ok .done))

end Sys2Proof.Machine
end

