-- ==== Sys2Proof/Machine/Dispatch.lean ====
section
/-! DEFINITION. One arm per operation of R56. -/

namespace Sys2Proof.Machine

/-- The meaning of each operation. -/
def exec (i : Instr) (s : State) : Host.Outcome State Fault Refusal :=
  match i with
  | .clear => Sys2Proof.Machine.execClear s
  | .load r => Sys2Proof.Machine.execLoad r s
  | .descr => Sys2Proof.Machine.execDescr s
  | .map => Sys2Proof.Machine.execMap s
  | .decode r => Sys2Proof.Machine.execDecode r s
  | .rdi16 offset => Sys2Proof.Machine.execRdi16 offset s
  | .rdu8 offset => Sys2Proof.Machine.execRdu8 offset s
  | .hVer => Sys2Proof.Machine.execHVer s
  | .hProd => Sys2Proof.Machine.execHProd s
  | .fPh => Sys2Proof.Machine.execFPh s
  | .fEc => Sys2Proof.Machine.execFEc s
  | .fSalt => Sys2Proof.Machine.execFSalt s
  | .fTds => Sys2Proof.Machine.execFTds s
  | .fOrp => Sys2Proof.Machine.execFOrp s
  | .fCl => Sys2Proof.Machine.execFCl s
  | .fTemp => Sys2Proof.Machine.execFTemp s
  | .fBatt => Sys2Proof.Machine.execFBatt s
  | .hHold => Sys2Proof.Machine.execHHold s
  | .hBklt => Sys2Proof.Machine.execHBklt s
  | .dstep => Sys2Proof.Machine.execDstep s

end Sys2Proof.Machine
end

