-- ==== Sys2Proof/Machine/Step.lean ====
section
/-! DEFINITION. One step of the machine: the next request of the host's script, performed whole (R39, R126). -/

namespace Sys2Proof.Machine

/-- One step: the next request is taken from the script, decoded (R142: command decode comes first), and performed as one
atomic command. With no request pending the block is idle and holds its state (R126, R152). -/
def step (s : State) : Host.Outcome State Fault Refusal :=
  match s.script with
  | [] => .next s
  | q :: rest =>
    match decodeRequest q with
    | .ok i => exec i { s with script := rest }
    | .error e => refuseUnknown e { s with script := rest }

/-- `s` with the operation of the code `w`, its operands zero, as the next request. A class 0 code is the host's, a class
1 or 2 code the block's own sequencing's (R55; notes/assumptions/2 and 3). Codes are one byte (R57), so a wider `w`
keeps its low byte. -/
def State.withFetchWord (s : State) (_nbits w : Nat) : State :=
  { s with script := bareRequest (BitVec.ofNat 8 w) :: s.script }

end Sys2Proof.Machine
end

