-- ==== Sys2Proof/Machine/Binary64.lean ====
section
/-! DEFINITION. The binary64 view of the outputs (R106): the source's `f64` beside the normative rationals. PRESUMED
(notes/assumptions/14): the meaning of IEEE 754 binary64 is general knowledge (G1). No response carries this view. -/

namespace Sys2Proof.Machine

/-- A binary64 bit pattern: sign in bit 63, biased exponent in bits 62 to 52, fraction in bits 51 to 0. -/
abbrev F64 := BitVec 64

/-- The biased exponent field. -/
def F64.exponent (x : F64) : Nat := (x.extractLsb' 52 11).toNat

/-- The fraction field. -/
def F64.fraction (x : F64) : Nat := (x.extractLsb' 0 52).toNat

/-- A zero or a normal number: not a subnormal, an infinity or a NaN. -/
def F64.zeroOrNormal (x : F64) : Bool :=
  x == 0 || (decide (0 < x.exponent) && decide (x.exponent < 2047))

/-- The magnitude `m * 2^e` as an exact rational. -/
def scaleByTwo (m : Int) (e : Int) : Rat :=
  if 0 ≤ e then mkRat (m * 2 ^ e.toNat) 1 else mkRat m (2 ^ (-e).toNat)

/-- The number a finite pattern stands for. -/
def F64.value (x : F64) : Rat :=
  let m : Nat := if x.exponent = 0 then x.fraction else 2 ^ 52 + x.fraction
  let e : Int := if x.exponent = 0 then -1074 else (x.exponent : Int) - 1075
  scaleByTwo (if x.msb then -(m : Int) else (m : Int)) e

/-- The integer nearest `num / den`, an exact half to the even neighbour. -/
def nearestNat (num den : Nat) : Nat :=
  let below := num / den
  let twice := 2 * (num % den)
  if twice < den then below
  else if den < twice then below + 1
  else if below % 2 = 0 then below else below + 1

/-- The exponent `e` with `2^e ≤ num / den < 2^(e+1)`. -/
def binaryExponent (num den : Nat) : Int :=
  let e : Int := (num.log2 : Int) - (den.log2 : Int)
  if den * 2 ^ e.toNat ≤ num * 2 ^ (-e).toNat then e else e - 1

/-- A sign, an exponent and a 53-bit significand as a pattern. -/
def F64.pack (negative : Bool) (e : Int) (m : Nat) : F64 :=
  BitVec.ofBool negative ++ BitVec.ofNat 11 (e + 1023).toNat ++ BitVec.ofNat 52 (m - 2 ^ 52)

/-- The binary64 number nearest a rational, ties to even (R106). For zero, `+0.0`; for the rest the significand is
rounded to 53 bits, and a carry out of it moves the exponent. The rationals of R106 lie far inside the normal range. -/
def F64.nearest (q : Rat) : F64 :=
  if q.num = 0 then 0
  else
    let e := binaryExponent q.num.natAbs q.den
    let m := nearestNat (q.num.natAbs * 2 ^ (52 - e).toNat) (q.den * 2 ^ (e - 52).toNat)
    if m = 2 ^ 53 then F64.pack (decide (q.num < 0)) (e + 1) (2 ^ 52) else F64.pack (decide (q.num < 0)) e m

/-- `f64(raw) / d` for the literals 10.0, 100.0 and 1000.0, in one binary64 operation (R106). -/
def f64Div (raw : Int) (d : Nat) : F64 := F64.nearest (mkRat raw d)

/-- The literal `0.55` (R106). -/
def f64SaltFactor : F64 := 0x3FE199999999999A

/-- `f64(raw) * 0.55` in one binary64 operation, the factor already rounded (R106). -/
def f64Salt (raw : Int) : F64 :=
  F64.nearest (mkRat (raw * f64SaltFactor.value.num) f64SaltFactor.value.den)

/-- cloro in the `f64` view: the literal `0` for a negative raw value (R97, R106). -/
def f64Cl (raw : Int) : F64 := if raw < 0 then 0 else f64Div raw 10

/-- The sensors in the source's `f64|i32` typing (R105, R106): EC, TDS and battery are integers. -/
structure SensorsF64 where
  battery     : Option Int
  EC          : Option Int
  salt        : Option F64
  TDS         : Option Int
  cloro       : Option F64
  pH          : Option F64
  ORP         : Option F64
  temperature : Option F64
deriving DecidableEq, Repr

/-- The binary64 view of the sensors in the buffer (R106); a field is absent exactly when its rational is. -/
def sensorsF64 (s : State) : SensorsF64 where
  battery := (valueBatt s).toOption
  EC := (valueEc s).toOption
  salt := ((fieldI16 .salt 5 s).map f64Salt).toOption
  TDS := (valueTds s).toOption
  cloro := ((fieldI16 .cloro 11 s).map f64Cl).toOption
  pH := ((fieldI16 .pH 3 s).map (f64Div · 100)).toOption
  ORP := ((fieldI16 .ORP 9 s).map (f64Div · 1000)).toOption
  temperature := ((fieldI16 .temperature 13 s).map (f64Div · 10)).toOption

end Sys2Proof.Machine
end

