-- ==== Sys2Proof/Machine/Multi.lean ====
section
/-! DEFINITION. Several independent block instances (R20, R150): the product of single-instance machines. -/

namespace Sys2Proof.Machine

/-- One step of the instance at place `k`; the others hold their state. A place that holds no instance steps nothing. -/
def stepInstance (k : Nat) (blocks : List State) : Host.Outcome (List State) Fault Refusal :=
  match blocks[k]? with
  | none => .next blocks
  | some s =>
    match step s with
    | .next t => .next (blocks.set k t)
    | .fault f => .fault f
    | .refused r => .refused r

end Sys2Proof.Machine
end

