-- ==== Sys2Proof/Safety.lean ====
section
/-! DEFINITION. What claims about runs speak of: the invariant of the state (R10 to R14, R24), which frame the buffer
holds (R24), the phase a command leaves (R13), and a host's session with the block (R126). -/

namespace Sys2Proof.Machine

/-- What holds of a block between commands: the buffer's cells are in canonical form and lie below `LEN`, `LEN` is at most
`LEN_MAX`, an empty block has length 0 (R24 (a)), and `IDX` is not live (R24 (d)). -/
structure State.Inv (s : State) : Prop where
  memWf      : s.mem.wf
  cellsBelow : ∀ c ∈ s.mem, c.1 < s.len
  lenFits    : s.cfg.lenMax.admits s.len = true
  emptyLen   : s.phase = .empty → s.len = 0
  idxDead    : s.idx = none

/-- The buffer holds what the history says (R24): `none`, nothing since the last reset or CLEAR, and the block is empty;
`some r`, the frame most recently loaded is `r`, and the buffer is `r` or `descramble r` as the phase says. -/
def State.Holds (s : State) : Option (List Byte) → Prop
  | none => s.phase = .empty ∧ s.len = 0
  | some r =>
    (s.phase = .raw ∧ s.len = r.length ∧ s.frame = r)
    ∨ (s.phase = .descrambled ∧ s.len = r.length ∧ s.frame = descramble r)

/-- The frame most recently loaded, after one more request (R24): LOAD and DECODE of a frame that fits set it, CLEAR
drops it, nothing else changes it. -/
def loadedAfter (c : Config) (q : Request) (before : Option (List Byte)) : Option (List Byte) :=
  match decodeRequest q with
  | .ok .clear => none
  | .ok (.load r) => if c.lenMax.admits r.length then some r else before
  | .ok (.decode r) => if c.lenMax.admits r.length then some r else before
  | _ => before

/-- The last column of R13's table: the phase after a command that was admitted. -/
def phaseAfter : HostCommand → Phase → Phase
  | .load, _ => .raw
  | .descr, _ => .descrambled
  | .map, _ => .descrambled
  | .decode, _ => .descrambled
  | .rdi16, p => p
  | .rdu8, p => p
  | .clear, _ => .empty

/-- The host command an operation is, if it is one (R55). -/
def hostCommandOf : Instr → Option HostCommand
  | .clear => some .clear
  | .load _ => some .load
  | .descr => some .descr
  | .map => some .map
  | .decode _ => some .decode
  | .rdi16 _ => some .rdi16
  | .rdu8 _ => some .rdu8
  | .hVer | .hProd | .fPh | .fEc | .fSalt | .fTds | .fOrp | .fCl | .fTemp | .fBatt | .hHold | .hBklt | .dstep => none

/-- The block after it has served one request of the host's, which waits for the answer before sending the next (R125,
R164). A request that stops the model leaves the block as it was. -/
def serve (s : State) (q : Request) : State :=
  match step { s with script := [q] } with
  | .next t => t
  | .fault _ => s
  | .refused _ => s

/-- The block after a command script (R126). -/
def afterScript (s : State) (qs : List Request) : State := qs.foldl serve s

/-- The sequence of responses to a command script (R126). -/
def responses : State → List Request → List (Option Response)
  | _, [] => []
  | s, q :: qs => (serve s q).response :: responses (serve s q) qs

/-- Two states hold the same block: they agree on all but the host's side (the last answer and the pending script). -/
def State.sameBlock (s t : State) : Prop :=
  t.cfg = s.cfg ∧ t.mem = s.mem ∧ t.len = s.len ∧ t.phase = s.phase ∧ t.idx = s.idx

/-- The value of a two-byte field: the byte at the lower offset holds bits 15:8, the other bits 7:0, of a two's-complement
number (R47). -/
def State.raw (s : State) (offset : Nat) : Int := (s.mem.read offset ++ s.mem.read (offset + 1)).toInt

/-- One row of the field table (R46, R51, R137): the operation, the name its DecodeError carries, its offset, and how many
bytes it reads. -/
structure FieldRow where
  op     : Instr
  name   : FieldName
  offset : Nat
  width  : Nat
deriving DecidableEq, Repr

/-- The field table in the order of R103. -/
def fieldRows : List FieldRow :=
  [ ⟨.hVer, .H_VER, 1, 1⟩, ⟨.hProd, .H_PROD, 2, 1⟩, ⟨.fPh, .pH, 3, 2⟩, ⟨.fEc, .EC, 5, 2⟩, ⟨.fSalt, .salt, 5, 2⟩,
    ⟨.fTds, .TDS, 7, 2⟩, ⟨.fOrp, .ORP, 9, 2⟩, ⟨.fCl, .cloro, 11, 2⟩, ⟨.fTemp, .temperature, 13, 2⟩,
    ⟨.fBatt, .battery, 15, 2⟩, ⟨.hHold, .H_HOLD, 17, 1⟩, ⟨.hBklt, .H_BKLT, 17, 1⟩ ]

end Sys2Proof.Machine
end

