-- ==== Sys2Proof/Certificates/Slice0/Obligations.lean ====
section
/-! DEFINITION. The statements for the provers. -/

open Sys2Proof Sys2Proof.Machine

/-! ### Reset and construction -/

/-- R23. Every configuration's reset block is empty, has length 0 and no live pair index, keeps its configuration, and no
cell of it is addressable; and CLEAR, from any block whose pair index is not live, gives that same block. -/
def Obligations.ResetLeavesEmptyUnaddressableBlock : Prop :=
  ∀ c : Config,
    (State.resetOf c).phase = .empty ∧ (State.resetOf c).len = 0 ∧ (State.resetOf c).idx = none
    ∧ (State.resetOf c).cfg = c
    ∧ (∀ a, readU8 a (State.resetOf c) = .error a)
    ∧ ∀ s : State, s.cfg = c → s.idx = none →
        ∃ t, exec .clear s = .next t ∧ State.sameBlock (State.resetOf c) t

/-- R24, at reset: the invariant holds and nothing is loaded. -/
def Obligations.ResetMeetsInvariant : Prop :=
  ∀ c : Config, (State.resetOf c).Inv ∧ (State.resetOf c).Holds none

/-- R139. A block is built exactly when the calibration pair is not degenerate, with the constants supplied, in the reset
state. -/
def Obligations.DegenerateCalibrationBuildsNoBlock : Prop :=
  ∀ (b0 b100 : I16) (m : Mode) (r : RoundTie) (l : LenMax),
    (b100 = b0 → construct b0 b100 m r l = .error .calibrationDegenerate)
    ∧ (b100 ≠ b0 → ∃ c : Config, construct b0 b100 m r l = .ok (State.resetOf c)
        ∧ c.batt0 = b0 ∧ c.batt100 = b100 ∧ c.mode = m ∧ c.roundTie = r ∧ c.lenMax = l)

/-! ### Codes and requests -/

/-- R56. The code of each operation, with its operands at any value. -/
def Obligations.OperationCodesDecodeAsListed : Prop :=
  ∀ (who : Issuer) (r : List Byte) (o : Nat),
    decode ⟨who, 0b00000000, r, o⟩ = .ok .clear ∧ decode ⟨who, 0b00000001, r, o⟩ = .ok (.load r)
    ∧ decode ⟨who, 0b00000010, r, o⟩ = .ok .descr ∧ decode ⟨who, 0b00000011, r, o⟩ = .ok .map
    ∧ decode ⟨who, 0b00000100, r, o⟩ = .ok (.decode r) ∧ decode ⟨who, 0b00000101, r, o⟩ = .ok (.rdi16 o)
    ∧ decode ⟨who, 0b00000110, r, o⟩ = .ok (.rdu8 o) ∧ decode ⟨who, 0b00010000, r, o⟩ = .ok .hVer
    ∧ decode ⟨who, 0b00010001, r, o⟩ = .ok .hProd ∧ decode ⟨who, 0b00010010, r, o⟩ = .ok .fPh
    ∧ decode ⟨who, 0b00010011, r, o⟩ = .ok .fEc ∧ decode ⟨who, 0b00010100, r, o⟩ = .ok .fSalt
    ∧ decode ⟨who, 0b00010101, r, o⟩ = .ok .fTds ∧ decode ⟨who, 0b00010110, r, o⟩ = .ok .fOrp
    ∧ decode ⟨who, 0b00010111, r, o⟩ = .ok .fCl ∧ decode ⟨who, 0b00011000, r, o⟩ = .ok .fTemp
    ∧ decode ⟨who, 0b00011001, r, o⟩ = .ok .fBatt ∧ decode ⟨who, 0b00011010, r, o⟩ = .ok .hHold
    ∧ decode ⟨who, 0b00011011, r, o⟩ = .ok .hBklt ∧ decode ⟨who, 0b00100000, r, o⟩ = .ok .dstep

/-- R56, R57. Decode and encode are inverse to each other: every operation's request is well-formed and decodes to it, and
every well-formed request is the encoding of the operation it decodes to. -/
def Obligations.DecodeAndEncodeAreInverse : Prop :=
  (∀ i : Instr, (encode i).wf = true ∧ decodeRequest (encode i) = .ok i)
  ∧ ∀ q : Request, q.wf = true → ∃ i, decodeRequest q = .ok i ∧ encode i = q

/-- R58. Any code that is not one of the seven host commands', asked for by a host in any state and with any operands, is
refused with `UnknownCommand`, and no state changes. -/
def Obligations.HostCodeOutsideCommandsIsRefused : Prop :=
  ∀ (s : State) (q : Request) (rest : List Request),
    q.issuer = .host → q.code.toNat > 6 → s.script = q :: rest →
      step s = .next (State.answer (.refused (.unknownCommand q.code)) { s with script := rest })

/-- A step performs the operation its next request stands for, on the state with that request taken from the script; with
no request pending it changes nothing. -/
def Obligations.StepRunsTheDecodedRequest : Prop :=
  (∀ (s : State) (q : Request) (rest : List Request) (i : Instr),
    s.script = q :: rest → decodeRequest q = .ok i → step s = exec i { s with script := rest })
  ∧ ∀ s : State, s.script = [] → step s = .next s

/-! ### The descrambler -/

/-- R65. DSTEP at a live pair index `i`: both new cells from the two old ones, by the source's expressions; no other cell,
and nothing else of the block, changes. -/
def Obligations.DstepWritesItsPairOnly : Prop :=
  ∀ (s : State) (i : Nat), s.idx = some i → 1 ≤ i → i < s.len →
    ∃ t, exec .dstep s = .next t
      ∧ t.mem.read i =
          0xFF - (((s.mem.read i &&& 0x55) <<< 1) ||| ((s.mem.read (i - 1) &&& 0xAA) >>> 1))
      ∧ t.mem.read (i - 1) =
          0xFF - (((s.mem.read (i - 1) &&& 0x55) <<< 1) ||| ((s.mem.read i &&& 0xAA) >>> 1))
      ∧ (∀ a, a ≠ i → a ≠ i - 1 → t.mem.read a = s.mem.read a)
      ∧ t.cfg = s.cfg ∧ t.len = s.len ∧ t.phase = s.phase ∧ t.idx = s.idx ∧ t.script = s.script
      ∧ t.response = some (.ok .done)

/-- The model's choice for DSTEP outside R65's range (notes/assumptions/10): it stops. -/
def Obligations.DstepStopsWithoutLivePair : Prop :=
  ∀ s : State, (∀ i, s.idx = some i → i = 0 ∨ s.len ≤ i) → exec .dstep s = .fault .pairIndexNotLive

/-- R67. Nothing in a pair step overflows, borrows or is truncated: the shifted halves keep their value and their places,
their or is their sum, and `0xFF - x` is the complement. -/
def Obligations.PairStepNeverOverflows : Prop :=
  ∀ hi lo : Byte,
    (evenToOdd hi).toNat = 2 * (hi &&& 0x55).toNat ∧ 2 * (oddToEven hi).toNat = (hi &&& 0xAA).toNat
    ∧ (evenToOdd hi).toNat ≤ 0xAA ∧ evenToOdd hi &&& 0x55 = 0
    ∧ (oddToEven lo).toNat ≤ 0x55 ∧ oddToEven lo &&& 0xAA = 0
    ∧ (evenToOdd hi ||| oddToEven lo).toNat = (evenToOdd hi).toNat + (oddToEven lo).toNat
    ∧ (newUpper hi lo).toNat = 0xFF - ((evenToOdd hi).toNat + (oddToEven lo).toNat)
    ∧ (newLower hi lo).toNat = 0xFF - ((evenToOdd lo).toNat + (oddToEven hi).toNat)
    ∧ newUpper hi lo = ~~~(evenToOdd hi ||| oddToEven lo) ∧ newLower hi lo = ~~~(evenToOdd lo ||| oddToEven hi)

/-- R70. DSTEP bit by bit, and the step is a bijection on pairs of bytes. -/
def Obligations.DstepMovesAndInvertsEveryBit : Prop :=
  (∀ (s : State) (i : Nat), s.idx = some i → 1 ≤ i → i < s.len →
    ∃ t, exec .dstep s = .next t ∧ ∀ k < 4,
      (t.mem.read i).getLsbD (2 * k + 1) = !(s.mem.read i).getLsbD (2 * k)
      ∧ (t.mem.read i).getLsbD (2 * k) = !(s.mem.read (i - 1)).getLsbD (2 * k + 1)
      ∧ (t.mem.read (i - 1)).getLsbD (2 * k + 1) = !(s.mem.read (i - 1)).getLsbD (2 * k)
      ∧ (t.mem.read (i - 1)).getLsbD (2 * k) = !(s.mem.read i).getLsbD (2 * k + 1))
  ∧ Function.Bijective fun p : Byte × Byte => (newUpper p.1 p.2, newLower p.1 p.2)

/-- R14, R66. The pair indices of a pass over `n` bytes: `n-1` of them, from `n-1` down by one to 1. -/
def Obligations.PassVisitsPairsInDescendingOrder : Prop :=
  ∀ n : Nat, (pairIndices n).length = n - 1 ∧ ∀ k < n - 1, (pairIndices n)[k]? = some (n - 1 - k)

/-- R68. DESCR in phase RAW: the in-place pass leaves in the buffer what the pure function `descramble` gives; the length
stays, the phase is DESCRAMBLED, the pair index is not live, and no cell beyond the frame changes. In the other phases it
is refused. -/
def Obligations.DescrInPlaceIsDescramble : Prop :=
  ∀ s : State,
    (s.phase = .raw → ∃ t, exec .descr s = .next t
      ∧ t.frame = descramble s.frame
      ∧ (∀ a, s.len ≤ a → t.mem.read a = s.mem.read a)
      ∧ t.len = s.len ∧ t.phase = .descrambled ∧ t.idx = none ∧ t.cfg = s.cfg ∧ t.script = s.script
      ∧ t.response = some (.ok .done))
    ∧ (s.phase ≠ .raw → exec .descr s = .next (s.answer (.refused (.wrongPhase .descr s.phase))))

/-- R68, the recurrence: `descramble(r)` runs the pair step at `n-1`, then at `n-2`, and so on, each on the buffer the one
before left. Stated as one step of the pass on a frame of at least two bytes: it fixes the last byte, and the rest of the
result is `descramble` of the frame without its last byte, after the pair step at `n-1`. -/
def Obligations.DescrambleStepsFromTheEnd : Prop :=
  ∀ (r : List Byte) (lo hi : Byte),
    descramble (r ++ [lo, hi]) =
      descramble (r ++ [0xFF - (((lo &&& 0x55) <<< 1) ||| ((hi &&& 0xAA) >>> 1))])
        ++ [0xFF - (((hi &&& 0x55) <<< 1) ||| ((lo &&& 0xAA) >>> 1))]

/-- R69. DESCR on a frame of length 0 or 1 leaves the buffer as it is and sets the phase; a frame of length 2 takes the
single step. -/
def Obligations.ShortFramesPassUnchanged : Prop :=
  (∀ s : State, s.phase = .raw → s.len < 2 → ∃ t, exec .descr s = .next t
      ∧ (∀ a, t.mem.read a = s.mem.read a) ∧ t.len = s.len ∧ t.phase = .descrambled)
  ∧ descramble [] = [] ∧ descramble [0x42] = [0x42] ∧ descramble [0x12, 0x34] = [0xCF, 0xD6]
  ∧ ∀ s : State, s.phase = .raw → s.len = 2 → ∃ t, exec .descr s = .next t ∧ ∃ u,
      exec .dstep { s with idx := some 1 } = .next u ∧ ∀ a, t.mem.read a = u.mem.read a

/-- R71. The closed form of the whole pass. -/
def Obligations.DescrambleClosedForm : Prop :=
  ∀ R : List Byte,
    (R.length < 2 → descramble R = R)
    ∧ (∀ x y, R = [x, y] → descramble R = [~~~(evenToOdd x ||| oddToEven y), ~~~(evenToOdd y ||| oddToEven x)])
    ∧ (3 ≤ R.length → (descramble R).length = R.length
        ∧ (descramble R)[0]? = some ((~~~evenToOdd (R.getD 0 0) &&& 0xAA) ||| (R.getD 1 0 &&& 0x55))
        ∧ (∀ j, 1 ≤ j → j + 3 ≤ R.length →
            (descramble R)[j]? =
              some ((~~~evenToOdd (R.getD (j + 1) 0) &&& 0xAA) ||| (~~~oddToEven (R.getD (j - 1) 0) &&& 0x55)))
        ∧ (descramble R)[R.length - 2]? =
            some ((R.getD (R.length - 1) 0 &&& 0xAA) ||| (~~~oddToEven (R.getD (R.length - 3) 0) &&& 0x55))
        ∧ (descramble R)[R.length - 1]? =
            some ((~~~evenToOdd (R.getD (R.length - 1) 0) &&& 0xAA)
              ||| (~~~oddToEven (R.getD (R.length - 2) 0) &&& 0x55)))

/-- R72 (a), (d). `descramble` preserves the length and is a one-to-one map of the frames of each length onto
themselves. -/
def Obligations.DescrambleIsLengthPreservingBijection : Prop :=
  (∀ r : List Byte, (descramble r).length = r.length)
  ∧ ∀ d : List Byte, ∃ r : List Byte, descramble r = d ∧ ∀ r', descramble r' = d → r' = r

/-- R72 (e). Cutting a raw frame at length `m ≥ 3` leaves the descrambled bytes below `m-2` as they were. -/
def Obligations.TruncationChangesTheLastTwoBytesOnly : Prop :=
  ∀ (r : List Byte) (m : Nat), 3 ≤ m → m ≤ r.length →
    ∀ j, j + 3 ≤ m → (descramble (r.take m))[j]? = (descramble r)[j]?

/-- R73. `descramble` is neither an involution nor idempotent, by the source's vector; and the block refuses a second
DESCR. -/
def Obligations.DescrambleIsNoInvolution : Prop :=
  descramble [0x00, 0xFF, 0x0F, 0xF0] = [0xFF, 0xF5, 0xA0, 0x5A]
  ∧ descramble [0xFF, 0xF5, 0xA0, 0x5A] = [0x55, 0xAA, 0x0F, 0x0F]
  ∧ ∀ s t : State, exec .descr s = .next t → t.response = some (.ok .done) →
      exec .descr t = .next (t.answer (.refused (.wrongPhase .descr .descrambled)))

/-! ### The field extractor -/

/-- R81. RDI16 where the block holds a frame: OutOfRange exactly when `offset + 1 ≥ LEN`, otherwise the big-endian,
two's-complement value of the two bytes; nothing but the answer changes. -/
def Obligations.Rdi16ReadsSignedBigEndian : Prop :=
  ∀ (s : State) (o : Nat), s.phase ≠ .empty →
    (o + 1 < s.len → ∃ v : Int, exec (.rdi16 o) s = .next (s.answer (.ok (.i16 v)))
      ∧ v = s.raw o
      ∧ (v = 256 * (s.mem.read o).toNat + (s.mem.read (o + 1)).toNat
          ∨ v = 256 * (s.mem.read o).toNat + (s.mem.read (o + 1)).toNat - 65536)
      ∧ -32768 ≤ v ∧ v ≤ 32767)
    ∧ (s.len ≤ o + 1 → exec (.rdi16 o) s = .next (s.answer (.fault (.outOfRange o))))

/-- R85. RDU8 where the block holds a frame: OutOfRange exactly when `offset ≥ LEN`, otherwise the byte. -/
def Obligations.Rdu8ReadsUnsignedByte : Prop :=
  ∀ (s : State) (o : Nat), s.phase ≠ .empty →
    (o < s.len → exec (.rdu8 o) s = .next (s.answer (.ok (.u8 (s.mem.read o)))))
    ∧ (s.len ≤ o → exec (.rdu8 o) s = .next (s.answer (.fault (.outOfRange o))))

/-- R34. The byte RDU8 returns at `a` is the high byte of RDI16 at `a` and the low byte of RDI16 at `a - 1`. -/
def Obligations.OverlappingReadsSeeTheSameCells : Prop :=
  ∀ (s : State) (a : Nat), s.phase ≠ .empty → 1 ≤ a → a + 1 < s.len →
    ∃ (b : Byte) (v w : Int),
      exec (.rdu8 a) s = .next (s.answer (.ok (.u8 b)))
      ∧ exec (.rdi16 a) s = .next (s.answer (.ok (.i16 v)))
      ∧ exec (.rdi16 (a - 1)) s = .next (s.answer (.ok (.i16 w)))
      ∧ ((BitVec.ofInt 16 v).extractLsb' 8 8 = b) ∧ ((BitVec.ofInt 16 w).extractLsb' 0 8 = b)

/-! ### The field operations -/

/-- R90, R91. H_VER and H_PROD answer the bytes at 1 and 2 as read. -/
def Obligations.HeaderFieldsAnswerTheirByte : Prop :=
  ∀ s : State,
    (1 < s.len → exec .hVer s = .next (s.answer (.ok (.u8 (s.mem.read 1)))))
    ∧ (s.len ≤ 1 → exec .hVer s = .next (s.answer (.fault (.decodeError ⟨.H_VER, 1⟩))))
    ∧ (2 < s.len → exec .hProd s = .next (s.answer (.ok (.u8 (s.mem.read 2)))))
    ∧ (s.len ≤ 2 → exec .hProd s = .next (s.answer (.fault (.decodeError ⟨.H_PROD, 2⟩))))

/-- R92, R98. pH is the raw value over 100, temperature the raw value over 10, both unclipped. -/
def Obligations.PhAndTemperatureScaleExactly : Prop :=
  ∀ s : State,
    (4 < s.len → exec .fPh s = .next (s.answer (.ok (.rat ((s.raw 3 : Rat) / 100)))))
    ∧ (s.len ≤ 4 → exec .fPh s = .next (s.answer (.fault (.decodeError ⟨.pH, 3⟩))))
    ∧ (14 < s.len → exec .fTemp s = .next (s.answer (.ok (.rat ((s.raw 13 : Rat) / 10)))))
    ∧ (s.len ≤ 14 → exec .fTemp s = .next (s.answer (.fault (.decodeError ⟨.temperature, 13⟩))))

/-- R93, R95. EC and TDS are the raw values, unscaled and unclipped. -/
def Obligations.EcAndTdsAreRaw : Prop :=
  ∀ s : State,
    (6 < s.len → exec .fEc s = .next (s.answer (.ok (.int (s.raw 5)))))
    ∧ (s.len ≤ 6 → exec .fEc s = .next (s.answer (.fault (.decodeError ⟨.EC, 5⟩))))
    ∧ (8 < s.len → exec .fTds s = .next (s.answer (.ok (.int (s.raw 7)))))
    ∧ (s.len ≤ 8 → exec .fTds s = .next (s.answer (.fault (.decodeError ⟨.TDS, 7⟩))))

/-- R94. Where EC answers `x`, salt answers exactly `x * 11 / 20`; salt fails exactly when EC fails, naming `salt` and
offset 5. -/
def Obligations.SaltIsElevenTwentiethsOfEc : Prop :=
  ∀ s : State,
    (6 < s.len → ∃ x : Int, exec .fEc s = .next (s.answer (.ok (.int x)))
      ∧ x = s.raw 5 ∧ exec .fSalt s = .next (s.answer (.ok (.rat ((x : Rat) * 11 / 20)))))
    ∧ (s.len ≤ 6 → exec .fEc s = .next (s.answer (.fault (.decodeError ⟨.EC, 5⟩)))
      ∧ exec .fSalt s = .next (s.answer (.fault (.decodeError ⟨.salt, 5⟩))))

/-- R96 and its divisor, which the spec marks as inferred from one example (D11; notes/assumptions/13): ORP is the raw
value over 1000, unclipped. -/
def Obligations.OrpIsRawOverThousand : Prop :=
  ∀ s : State,
    (10 < s.len → exec .fOrp s = .next (s.answer (.ok (.rat ((s.raw 9 : Rat) / 1000)))))
    ∧ (s.len ≤ 10 → exec .fOrp s = .next (s.answer (.fault (.decodeError ⟨.ORP, 9⟩))))

/-- R97. cloro is 0 for a negative raw value and the raw value over 10 otherwise; never negative. -/
def Obligations.ChlorineIsFlooredAtZero : Prop :=
  ∀ s : State,
    (12 < s.len → ∃ v : Rat, exec .fCl s = .next (s.answer (.ok (.rat v))) ∧ 0 ≤ v
      ∧ (s.raw 11 < 0 → v = 0) ∧ (0 ≤ s.raw 11 → v = (s.raw 11 : Rat) / 10))
    ∧ (s.len ≤ 12 → exec .fCl s = .next (s.answer (.fault (.decodeError ⟨.cloro, 11⟩))))

/-- R99. battery is the integer nearest `q = 100 * (raw - BATT_0) / (BATT_100 - BATT_0)`, a tie taken as `ROUND_TIE` says,
then clamped to 0..100. `n` is that integer before the clamp. -/
def Obligations.BatteryRoundsThenClamps : Prop :=
  ∀ s : State,
    (16 < s.len → ∃ (q : Rat) (n b : Int), exec .fBatt s = .next (s.answer (.ok (.int b)))
      ∧ q = 100 * ((s.raw 15 : Rat) - s.cfg.batt0.toInt) / ((s.cfg.batt100.toInt : Rat) - s.cfg.batt0.toInt)
      ∧ |q - n| ≤ 1 / 2
      ∧ (|q - n| = 1 / 2 →
          (s.cfg.roundTie = .halfEven → Even n) ∧ (s.cfg.roundTie = .halfUp → q < n)
          ∧ (s.cfg.roundTie = .halfAway → |q| < |(n : Rat)|))
      ∧ b = max 0 (min n 100))
    ∧ (s.len ≤ 16 → exec .fBatt s = .next (s.answer (.fault (.decodeError ⟨.battery, 15⟩))))

/-- R100, and R99's properties for an ordered pair: outside the calibrated range battery is 0 or 100, at `BATT_0` it is 0,
and with the pair inverted the quotient falls as the raw value rises and the same holds mirrored. -/
def Obligations.BatteryClampsOutsideCalibration : Prop :=
  (∀ (c : Config) (raw raw' : Int), c.batt100.toInt < c.batt0.toInt → raw < raw' →
    battQuotient c raw' < battQuotient c raw)
  ∧ ∀ s : State, 16 < s.len → ∃ b : Int, exec .fBatt s = .next (s.answer (.ok (.int b))) ∧ 0 ≤ b ∧ b ≤ 100
    ∧ (s.raw 15 = s.cfg.batt0.toInt → b = 0)
    ∧ (s.cfg.batt0.toInt < s.cfg.batt100.toInt →
        (s.raw 15 < s.cfg.batt0.toInt → b = 0) ∧ (s.cfg.batt100.toInt ≤ s.raw 15 → b = 100))
    ∧ (s.cfg.batt100.toInt < s.cfg.batt0.toInt →
        (s.cfg.batt0.toInt < s.raw 15 → b = 0) ∧ (s.raw 15 ≤ s.cfg.batt100.toInt → b = 100))

/-- R99. After the clamp `HALF_UP` and `HALF_AWAY` always agree. -/
def Obligations.HalfUpAndHalfAwayAgreeOnBattery : Prop :=
  ∀ (c d : Config) (raw : Int), c.batt0 = d.batt0 → c.batt100 = d.batt100 →
    c.roundTie = .halfUp → d.roundTie = .halfAway → scaleBatt c raw = scaleBatt d raw

/-- R101, R102. H_HOLD answers the high nibble of the status byte (0 to 15), H_BKLT its bit 3 (0 or 1). -/
def Obligations.StatusFieldsSplitTheStatusByte : Prop :=
  ∀ s : State,
    (17 < s.len → ∃ h b : Byte,
      exec .hHold s = .next (s.answer (.ok (.u8 h))) ∧ exec .hBklt s = .next (s.answer (.ok (.u8 b)))
      ∧ h.toNat = (s.mem.read 17).toNat / 16 ∧ h.toNat ≤ 15
      ∧ b.toNat = (if (s.mem.read 17).getLsbD 3 then 1 else 0))
    ∧ (s.len ≤ 17 → exec .hHold s = .next (s.answer (.fault (.decodeError ⟨.H_HOLD, 17⟩)))
      ∧ exec .hBklt s = .next (s.answer (.fault (.decodeError ⟨.H_BKLT, 17⟩))))

/-- R137. Each of the twelve field operations ends with `DecodeError(field, offset)` exactly when the frame is too short
for its bytes, and otherwise answers a value: it does not fail on any byte value. -/
def Obligations.FieldFailsExactlyWhenFrameTooShort : Prop :=
  ∀ (s : State) (f : FieldRow), f ∈ fieldRows →
    (s.len < f.offset + f.width → exec f.op s = .next (s.answer (.fault (.decodeError ⟨f.name, f.offset⟩))))
    ∧ (f.offset + f.width ≤ s.len → ∃ r, exec f.op s = .next (s.answer (.ok r)))

/-- R107. Each field's answer depends only on its own bytes (and battery's on the configuration, presence on `LEN`); of
the status byte only on its upper five bits. -/
def Obligations.FieldDependsOnItsBytesOnly : Prop :=
  ∀ (s t : State) (f : FieldRow), f ∈ fieldRows → t.len = s.len →
    (f.op = .fBatt → t.cfg.batt0 = s.cfg.batt0 ∧ t.cfg.batt100 = s.cfg.batt100 ∧ t.cfg.roundTie = s.cfg.roundTie) →
    (f.offset ≠ 17 → ∀ k < f.width, t.mem.read (f.offset + k) = s.mem.read (f.offset + k)) →
    (f.offset = 17 → t.mem.read 17 &&& 0xF8 = s.mem.read 17 &&& 0xF8) →
    ∃ r, exec f.op s = .next (s.answer r) ∧ exec f.op t = .next (t.answer r)

/-! ### MAP -/

/-- R103, R104, R105, lenient. MAP on a descrambled buffer answers a Snapshot: an output is present exactly when its field
operation answers a value, with that value; the errors are those of the absent outputs, in the order of R103, which is the
spec's choice (D19; notes/assumptions/16). -/
def Obligations.LenientMapCollectsTheFields : Prop :=
  ∀ s : State, s.phase = .descrambled → s.cfg.mode = .lenient →
    ∃ S : Snapshot, exec .map s = .next (s.answer (.ok (.snapshot S)))
      ∧ (∀ v, S.aux.ver = some v ↔ exec .hVer s = .next (s.answer (.ok (.u8 v))))
      ∧ (∀ v, S.aux.prod = some v ↔ exec .hProd s = .next (s.answer (.ok (.u8 v))))
      ∧ (∀ v, S.sensors.pH = some v ↔ exec .fPh s = .next (s.answer (.ok (.rat v))))
      ∧ (∀ v, S.sensors.EC = some v ↔ exec .fEc s = .next (s.answer (.ok (.int v))))
      ∧ (∀ v, S.sensors.salt = some v ↔ exec .fSalt s = .next (s.answer (.ok (.rat v))))
      ∧ (∀ v, S.sensors.TDS = some v ↔ exec .fTds s = .next (s.answer (.ok (.int v))))
      ∧ (∀ v, S.sensors.ORP = some v ↔ exec .fOrp s = .next (s.answer (.ok (.rat v))))
      ∧ (∀ v, S.sensors.cloro = some v ↔ exec .fCl s = .next (s.answer (.ok (.rat v))))
      ∧ (∀ v, S.sensors.temperature = some v ↔ exec .fTemp s = .next (s.answer (.ok (.rat v))))
      ∧ (∀ v, S.sensors.battery = some v ↔ exec .fBatt s = .next (s.answer (.ok (.int v))))
      ∧ (∀ v, S.aux.hold = some v ↔ exec .hHold s = .next (s.answer (.ok (.u8 v))))
      ∧ (∀ v, S.aux.bklt = some v ↔ exec .hBklt s = .next (s.answer (.ok (.u8 v))))
      ∧ S.errors = (fieldRows.filter fun f => decide (s.len < f.offset + f.width)).map fun f => ⟨f.name, f.offset⟩

/-- R104, strict. MAP on a descrambled buffer names the first failing operation by the length alone, as R104's table has
it; from 18 bytes on it answers the same Snapshot as the lenient block. That the first failing operation in the order of R103
is the one named is the spec's choice (D19; notes/assumptions/16). -/
def Obligations.StrictMapNamesTheFirstMissingField : Prop :=
  ∀ s : State, s.phase = .descrambled → s.cfg.mode = .strict →
    (s.len < 18 → exec .map s = .next (s.answer (.fault (.decodeError
      (if s.len < 2 then ⟨.H_VER, 1⟩ else if s.len < 3 then ⟨.H_PROD, 2⟩ else if s.len < 5 then ⟨.pH, 3⟩
        else if s.len < 7 then ⟨.EC, 5⟩ else if s.len < 9 then ⟨.TDS, 7⟩ else if s.len < 11 then ⟨.ORP, 9⟩
        else if s.len < 13 then ⟨.cloro, 11⟩ else if s.len < 15 then ⟨.temperature, 13⟩
        else if s.len < 17 then ⟨.battery, 15⟩ else ⟨.H_HOLD, 17⟩)))))
    ∧ (18 ≤ s.len → ∃ S : Snapshot, exec .map s = .next (s.answer (.ok (.snapshot S))) ∧ S.errors = []
        ∧ exec .map { s with cfg := { s.cfg with mode := .lenient } } =
            .next (State.answer (.ok (.snapshot S)) { s with cfg := { s.cfg with mode := .lenient } }))

/-- R50, R107. MAP's answer does not depend on byte 0, on bytes 18 and up, on bits 2:0 of the status byte, or on anything
the block did before: two descrambled blocks of one configuration and length that agree on bytes 1 to 16 and on the upper
five bits of byte 17 answer the same. -/
def Obligations.MapIgnoresUnassignedPositions : Prop :=
  ∀ s t : State, s.phase = .descrambled → t.phase = .descrambled → t.cfg = s.cfg → t.len = s.len →
    (∀ a, 1 ≤ a → a ≤ 16 → t.mem.read a = s.mem.read a) →
    t.mem.read 17 &&& 0xF8 = s.mem.read 17 &&& 0xF8 →
    ∃ r, exec .map s = .next (s.answer r) ∧ exec .map t = .next (t.answer r)

/-- R111. The source's end-to-end scenario, on any block of any configuration whose buffer holds those raw values. -/
def Obligations.EndToEndScenarioMapsAsTheSourceSays : Prop :=
  ∀ s : State, s.phase = .descrambled → 18 ≤ s.len → s.raw 3 = 750 → s.raw 5 = 1200 → s.raw 7 = 800 →
    s.raw 11 = 30 → s.raw 9 = 450 → s.raw 13 = 265 → s.raw 15 = s.cfg.batt100.toInt →
    ∃ S : Snapshot, exec .map s = .next (s.answer (.ok (.snapshot S)))
      ∧ S.sensors = { pH := some (7.5 : Rat), EC := some 1200, salt := some 660, TDS := some 800, cloro := some 3,
                      ORP := some (0.45 : Rat), temperature := some (26.5 : Rat), battery := some 100 }

/-! ### Host commands, responses and errors -/

/-- R120. LOAD of a frame that fits: length, every cell and phase as the frame says, every address beyond it out of range,
the rest of the block as before. An over-long frame is refused and changes no state. -/
def Obligations.LoadStoresTheFrame : Prop :=
  ∀ (r : List Byte) (s : State),
    (s.cfg.lenMax.admits r.length = true → ∃ t, exec (.load r) s = .next t
      ∧ t.len = r.length ∧ t.phase = .raw ∧ (∀ k (h : k < r.length), t.mem.read k = r[k]) ∧ t.frame = r
      ∧ (∀ a, r.length ≤ a → readU8 a t = .error a)
      ∧ t.cfg = s.cfg ∧ t.idx = s.idx ∧ t.script = s.script ∧ t.response = some (.ok .done))
    ∧ (s.cfg.lenMax.admits r.length = false →
        exec (.load r) s = .next (s.answer (.refused (.frameTooLong r.length))))

/-- R123. CLEAR: length 0, phase EMPTY, and every read refused; the rest of the block as before; and from a block whose
pair index is not live, the block right after reset. -/
def Obligations.ClearDropsTheFrame : Prop :=
  ∀ s : State, ∃ t, exec .clear s = .next t ∧ t.len = 0 ∧ t.phase = .empty ∧ t.response = some (.ok .done)
    ∧ t.cfg = s.cfg ∧ t.idx = s.idx ∧ t.script = s.script
    ∧ ∀ o, exec (.rdu8 o) t = .next (t.answer (.refused (.wrongPhase .rdu8 .empty)))
      ∧ exec (.rdi16 o) t = .next (t.answer (.refused (.wrongPhase .rdi16 .empty)))
      ∧ (s.idx = none → State.sameBlock (State.resetOf s.cfg) t)

/-- R60, R122. DECODE is LOAD, DESCR and MAP run back to back, and answers with MAP's response; afterwards the buffer is
the descrambled frame, also when MAP answered with a DecodeError. An over-long frame is refused and nothing else
happens. -/
def Obligations.DecodeIsLoadDescrMap : Prop :=
  ∀ (r : List Byte) (s : State),
    (s.cfg.lenMax.admits r.length = true → ∃ t1 t2 t3,
      exec (.load r) s = .next t1 ∧ exec .descr t1 = .next t2 ∧ exec .map t2 = .next t3
      ∧ exec (.decode r) s = .next t3
      ∧ t3.len = r.length ∧ t3.frame = descramble r ∧ t3.phase = .descrambled
      ∧ t3.cfg = s.cfg ∧ t3.script = s.script)
    ∧ (s.cfg.lenMax.admits r.length = false →
        exec (.decode r) s = .next (s.answer (.refused (.frameTooLong r.length))))

/-- R13. The phase table: each of the seven commands, with a frame that fits where it carries one, is performed in the
phases its row admits and leaves the phase its row says; in every other phase it is refused with `WrongPhase`, carrying
the command and the phase, and no state changes. -/
def Obligations.PhaseTableGovernsEveryCommand : Prop :=
  ∀ (s : State) (i : Instr) (c : HostCommand), hostCommandOf i = some c → i.wf s.cfg = true →
    ((c = .descr → s.phase = .raw) → (c = .map → s.phase = .descrambled) →
      (c = .rdi16 ∨ c = .rdu8 → s.phase ≠ .empty) →
        ∃ t r, exec i s = .next t ∧ t.response = some r ∧ t.phase = phaseAfter c s.phase ∧ ∀ x, r ≠ .refused x)
    ∧ ((c = .descr ∧ s.phase ≠ .raw ∨ c = .map ∧ s.phase ≠ .descrambled
          ∨ (c = .rdi16 ∨ c = .rdu8) ∧ s.phase = .empty) →
        exec i s = .next (s.answer (.refused (.wrongPhase c s.phase))))

/-- R141. A refusal changes no state at all, has one of the spec's reasons with its cause, and is not sticky: whatever the
block performs next, it does as if the refused request had never been sent. -/
def Obligations.RefusalChangesNothing : Prop :=
  ∀ (s t : State) (q : Request) (rest : List Request) (x : CommandRefusal), s.script = q :: rest →
    step s = .next t → t.response = some (.refused x) →
    t = State.answer (.refused x) { s with script := rest }
    ∧ ((x = .unknownCommand q.code ∧ ∀ i, decodeRequest q ≠ .ok i)
      ∨ (x = .wrongPhase .descr s.phase ∧ decodeRequest q = .ok .descr ∧ s.phase ≠ .raw)
      ∨ (x = .wrongPhase .map s.phase ∧ decodeRequest q = .ok .map ∧ s.phase ≠ .descrambled)
      ∨ (x = .wrongPhase .rdi16 s.phase ∧ (∃ o, decodeRequest q = .ok (.rdi16 o)) ∧ s.phase = .empty)
      ∨ (x = .wrongPhase .rdu8 s.phase ∧ (∃ o, decodeRequest q = .ok (.rdu8 o)) ∧ s.phase = .empty)
      ∨ ∃ r : List Byte, x = .frameTooLong r.length
          ∧ (decodeRequest q = .ok (.load r) ∨ decodeRequest q = .ok (.decode r))
          ∧ s.cfg.lenMax.admits r.length = false)
    ∧ ∀ j : Instr, exec j t = exec j { s with script := rest }

/-- R143. An operation that answers with a fault or a refusal has made no state change, but for a DECODE that answers
DecodeError in STRICT mode, which has loaded and descrambled the frame. -/
def Obligations.ErrorsArePreciseButForDecode : Prop :=
  ∀ (s t : State) (i : Instr) (x : Response), exec i s = .next t → t.response = some x → (∀ r, x ≠ .ok r) →
    t = s.answer x
    ∨ ∃ r e, i = .decode r ∧ x = .fault (.decodeError e) ∧ s.cfg.mode = .strict ∧ t.len = r.length
        ∧ t.frame = descramble r ∧ t.phase = .descrambled ∧ t.cfg = s.cfg ∧ t.script = s.script

/-- R124. The response table: what each host command may answer. -/
def Obligations.ResponsesAreThoseOfTheTable : Prop :=
  ∀ s : State,
    (∃ t, exec .clear s = .next t ∧ t.response = some (.ok .done))
    ∧ (∀ r, ∃ t, exec (.load r) s = .next t
        ∧ (t.response = some (.ok .done) ∨ t.response = some (.refused (.frameTooLong r.length))))
    ∧ (∃ t, exec .descr s = .next t
        ∧ (t.response = some (.ok .done) ∨ t.response = some (.refused (.wrongPhase .descr s.phase))))
    ∧ (∃ t, exec .map s = .next t
        ∧ ((∃ S, t.response = some (.ok (.snapshot S)))
          ∨ (s.cfg.mode = .strict ∧ ∃ e, t.response = some (.fault (.decodeError e)))
          ∨ t.response = some (.refused (.wrongPhase .map s.phase))))
    ∧ (∀ r, ∃ t, exec (.decode r) s = .next t
        ∧ ((∃ S, t.response = some (.ok (.snapshot S)))
          ∨ (s.cfg.mode = .strict ∧ ∃ e, t.response = some (.fault (.decodeError e)))
          ∨ t.response = some (.refused (.frameTooLong r.length))))
    ∧ (∀ o, ∃ t, exec (.rdi16 o) s = .next t
        ∧ ((∃ v, t.response = some (.ok (.i16 v)) ∧ -32768 ≤ v ∧ v ≤ 32767)
          ∨ t.response = some (.fault (.outOfRange o)) ∨ t.response = some (.refused (.wrongPhase .rdi16 s.phase))))
    ∧ (∀ o, ∃ t, exec (.rdu8 o) s = .next t
        ∧ ((∃ v, t.response = some (.ok (.u8 v)))
          ∨ t.response = some (.fault (.outOfRange o)) ∨ t.response = some (.refused (.wrongPhase .rdu8 s.phase))))
    ∧ (∀ (q : Request) (rest : List Request), q.issuer = .host → q.code.toNat > 6 → s.script = q :: rest →
        ∃ t, step s = .next t ∧ t.response = some (.refused (.unknownCommand q.code)))

/-- R124, R126. Every request a host can send, in any state, is answered in one step that takes exactly it from the script
and keeps the configuration: nothing a host sends stops the block. -/
def Obligations.EveryHostRequestIsAnswered : Prop :=
  ∀ (s : State) (q : Request) (rest : List Request), q.issuer = .host → s.script = q :: rest →
    ∃ t r, step s = .next t ∧ t.response = some r ∧ t.script = rest ∧ t.cfg = s.cfg

/-- R37. RDI16, RDU8, the field operations and MAP leave the block exactly as they found it, every cell included, and are
idempotent. -/
def Obligations.ReadsLeaveTheBlockAndRepeat : Prop :=
  ∀ (s : State) (i : Instr), (i = .map ∨ (∃ o, i = .rdi16 o) ∨ (∃ o, i = .rdu8 o) ∨ ∃ f ∈ fieldRows, i = f.op) →
    ∃ t, exec i s = .next t ∧ exec i t = .next t ∧ State.sameBlock s t ∧ t.script = s.script
      ∧ ∀ a, t.mem.read a = s.mem.read a

/-- R12. `LEN` is set by LOAD and DECODE to the length of the frame given, if it fits, and to 0 by CLEAR and by reset; no
other operation changes it. -/
def Obligations.LengthIsTheLoadedFrames : Prop :=
  (∀ c, (State.resetOf c).len = 0)
  ∧ ∀ (s t : State) (i : Instr), exec i s = .next t →
      t.len = match i with
        | .clear => 0
        | .load r => if s.cfg.lenMax.admits r.length then r.length else s.len
        | .decode r => if s.cfg.lenMax.admits r.length then r.length else s.len
        | _ => s.len

/-- R15, R16. No step writes the configuration. -/
def Obligations.ConfigurationIsNeverWritten : Prop :=
  ∀ s t : State, step s = .next t → t.cfg = s.cfg

/-- R22, R107. What DECODE answers and leaves does not depend on what the block held before. -/
def Obligations.DecodeForgetsTheEarlierFrame : Prop :=
  ∀ (s t : State) (r : List Byte), t.cfg = s.cfg → s.cfg.lenMax.admits r.length = true →
    ∃ s' t', exec (.decode r) s = .next s' ∧ exec (.decode r) t = .next t'
      ∧ t'.response = s'.response ∧ State.sameBlock s' t'

/-! ### Whole-machine rules -/

/-- The invariant of R10 to R14 and R24 is kept by every step, whoever issued the request. -/
def Obligations.EveryStepKeepsTheInvariant : Prop :=
  ∀ s t : State, s.Inv → step s = .next t → t.Inv

/-- R24. A block that holds what its history says holds it after one more step: an empty block nothing, a RAW block the
frame most recently loaded, a DESCRAMBLED block `descramble` of it. -/
def Obligations.EveryStepTracksTheLoadedFrame : Prop :=
  ∀ (s t : State) (loaded : Option (List Byte)), s.Inv → s.Holds loaded → step s = .next t →
    t.Holds (match s.script with
      | [] => loaded
      | q :: _ => loadedAfter s.cfg q loaded)

/-- R24. In every state a command script reaches from reset, for every configuration: the invariant holds, and the buffer
is the frame most recently loaded or `descramble` of it, as the phase says. -/
def Obligations.ReachableBlocksHoldTheLoadedFrame : Prop :=
  ∀ (c : Config) (qs : List Request),
    (afterScript (State.resetOf c) qs).Inv
    ∧ (afterScript (State.resetOf c) qs).Holds (qs.foldl (fun l q => loadedAfter c q l) none)

/-- R157 and R160. The order LOAD, DESCR, MAP: served to any block by a host, it answers ok, ok and what DECODE of the same
frame answers, and leaves the same block. -/
def Obligations.LoadDescrMapServesAsDecode : Prop :=
  ∀ (s : State) (r : List Byte), s.cfg.lenMax.admits r.length = true →
    ∃ x, responses s [encode (.load r), encode .descr, encode .map] = [some (.ok .done), some (.ok .done), some x]
      ∧ responses s [encode (.decode r)] = [some x]
      ∧ State.sameBlock (afterScript s [encode (.decode r)])
          (afterScript s [encode (.load r), encode .descr, encode .map])

/-- R150. Instances are independent: a step of one leaves every other as it was, and steps of two of them give the same
blocks in either order. -/
def Obligations.InstancesDoNotInterfere : Prop :=
  (∀ (bs bs' : List State) (k j : Nat), stepInstance k bs = .next bs' → j ≠ k → bs'[j]? = bs[j]?)
  ∧ ∀ (bs b1 b2 : List State) (k j : Nat), j ≠ k → stepInstance k bs = .next b1 → stepInstance j b1 = .next b2 →
      ∃ b3, stepInstance j bs = .next b3 ∧ stepInstance k b3 = .next b2

/-! ### The binary64 view -/

/-- R106. For each of the three divisions the binary64 view is the finite binary64 number nearest the exact rational. What
binary64 is rests on general knowledge (G1; notes/assumptions/14). -/
def Obligations.BinaryViewOfDivisionIsNearest : Prop :=
  ∀ (raw : Int) (d : Nat) (x : F64), -32768 ≤ raw → raw ≤ 32767 → (d = 10 ∨ d = 100 ∨ d = 1000) → x.exponent < 2047 →
    |(f64Div raw d).value - (raw : Rat) / d| ≤ |x.value - (raw : Rat) / d|

/-- R106. No binary64 view is a NaN, an infinity, a subnormal or a negative zero. What binary64 is, and how the view is
computed, rests on general knowledge (G1; notes/assumptions/14). -/
def Obligations.BinaryViewIsZeroOrNormal : Prop :=
  ∀ (raw : Int) (d : Nat), -32768 ≤ raw → raw ≤ 32767 → (d = 10 ∨ d = 100 ∨ d = 1000) →
    (f64Div raw d).zeroOrNormal = true ∧ (f64Salt raw).zeroOrNormal = true ∧ (f64Cl raw).zeroOrNormal = true
end

