-- ==== Sys2Proof/Laws/Decode.lean ====
section
/-! SUPPORT. The code list as rewriting rules, and the decoder's own case split. -/

namespace Sys2Proof

@[simp] theorem operationOf_00 : operationOf 0x00#8 = some fun _ _ => .clear := rfl
@[simp] theorem operationOf_01 : operationOf 0x01#8 = some fun r _ => .load r := rfl
@[simp] theorem operationOf_02 : operationOf 0x02#8 = some fun _ _ => .descr := rfl
@[simp] theorem operationOf_03 : operationOf 0x03#8 = some fun _ _ => .map := rfl
@[simp] theorem operationOf_04 : operationOf 0x04#8 = some fun r _ => .decode r := rfl
@[simp] theorem operationOf_05 : operationOf 0x05#8 = some fun _ o => .rdi16 o := rfl
@[simp] theorem operationOf_06 : operationOf 0x06#8 = some fun _ o => .rdu8 o := rfl
@[simp] theorem operationOf_10 : operationOf 0x10#8 = some fun _ _ => .hVer := rfl
@[simp] theorem operationOf_11 : operationOf 0x11#8 = some fun _ _ => .hProd := rfl
@[simp] theorem operationOf_12 : operationOf 0x12#8 = some fun _ _ => .fPh := rfl
@[simp] theorem operationOf_13 : operationOf 0x13#8 = some fun _ _ => .fEc := rfl
@[simp] theorem operationOf_14 : operationOf 0x14#8 = some fun _ _ => .fSalt := rfl
@[simp] theorem operationOf_15 : operationOf 0x15#8 = some fun _ _ => .fTds := rfl
@[simp] theorem operationOf_16 : operationOf 0x16#8 = some fun _ _ => .fOrp := rfl
@[simp] theorem operationOf_17 : operationOf 0x17#8 = some fun _ _ => .fCl := rfl
@[simp] theorem operationOf_18 : operationOf 0x18#8 = some fun _ _ => .fTemp := rfl
@[simp] theorem operationOf_19 : operationOf 0x19#8 = some fun _ _ => .fBatt := rfl
@[simp] theorem operationOf_1A : operationOf 0x1A#8 = some fun _ _ => .hHold := rfl
@[simp] theorem operationOf_1B : operationOf 0x1B#8 = some fun _ _ => .hBklt := rfl
@[simp] theorem operationOf_20 : operationOf 0x20#8 = some fun _ _ => .dstep := rfl

theorem decode_of_some {q : Request} {f : List Byte → Nat → Instr} (h : operationOf q.code = some f) :
    decode q = .ok (f q.frame q.offset) := by simp [decode, h]

theorem decode_of_none {q : Request} (h : operationOf q.code = none) : decode q = .error (.unassignedCode q.code) := by
  simp [decode, h]

theorem decodeRequest_of_error {q : Request} {e : Reject} (h : decode q = .error e) : decodeRequest q = .error e := by
  simp [decodeRequest, h]

/-- A decoded request may be performed when its issuer is the sequencer or its operation a host command. -/
theorem decodeRequest_of_ok {q : Request} {i : Instr} (h : decode q = .ok i) :
    decodeRequest q =
      if q.issuer = .sequencer ∨ i.opClass = .host then .ok i else .error (.notHostCommand q.code) := by
  simp only [decodeRequest, h]
  cases q.issuer <;> cases i.opClass <;> simp

/-- What a rejected request is rejected for names the request's code. -/
theorem decodeRequest_error {q : Request} {e : Reject} (h : decodeRequest q = .error e) :
    e = .unassignedCode q.code ∨ e = .notHostCommand q.code := by
  cases hd : operationOf q.code with
  | none =>
    rw [decodeRequest_of_error (decode_of_none hd)] at h
    cases h
    exact .inl rfl
  | some f =>
    rw [decodeRequest_of_ok (decode_of_some hd)] at h
    split at h
    · cases h
    · cases h; exact .inr rfl

end Sys2Proof
end

