-- ==== Sys2Proof/Laws/Memory.lean ====
section
/-! SUPPORT. The frame buffer's laws: a read after a write, and that every operation keeps the canonical form. -/

namespace Sys2Proof.Machine

@[simp] theorem Memory.read_nil (a : Nat) : Memory.read [] a = unlistedByte := rfl

theorem Memory.read_erase (m : Memory) (a b : Nat) :
    (m.erase a).read b = if b = a then unlistedByte else m.read b := by
  induction m with
  | nil => simp [Memory.erase, Memory.read]
  | cons c m ih =>
    by_cases hc : a = c.1
    · simp only [Memory.erase, if_pos hc, ih, Memory.read]
      by_cases hb : b = a <;> simp [hb, ← hc]
    · simp only [Memory.erase, if_neg hc, Memory.read, ih]
      by_cases hb : b = c.1
      · have : b ≠ a := fun h => hc (h.symm.trans hb)
        simp [hb, Ne.symm hc]
      · simp [hb]

theorem Memory.mem_erase {m : Memory} {a : Nat} {c : Host.Cell} : c ∈ m.erase a ↔ c ∈ m ∧ c.1 ≠ a := by
  induction m with
  | nil => simp [Memory.erase]
  | cons d m ih =>
    by_cases hd : a = d.1
    · simp only [Memory.erase, if_pos hd, ih, List.mem_cons]
      refine ⟨fun h => ⟨.inr h.1, h.2⟩, ?_⟩
      rintro ⟨rfl | h, hc⟩
      · exact absurd hd.symm hc
      · exact ⟨h, hc⟩
    · simp only [Memory.erase, if_neg hd, List.mem_cons, ih]
      refine ⟨?_, ?_⟩
      · rintro (rfl | h)
        · exact ⟨.inl rfl, fun h => hd h.symm⟩
        · exact ⟨.inr h.1, h.2⟩
      · rintro ⟨rfl | h, hc⟩
        · exact .inl rfl
        · exact .inr ⟨h, hc⟩

theorem Memory.mem_insert {m : Memory} {c d : Host.Cell} : c ∈ m.insert d ↔ c = d ∨ c ∈ m := by
  induction m with
  | nil => simp [Memory.insert]
  | cons e m ih =>
    by_cases he : d.1 < e.1
    · simp [Memory.insert, he]
    · simp only [Memory.insert, if_neg he, List.mem_cons, ih]; tauto

/-- Inserting a cell whose address is not listed adds it and hides nothing. -/
theorem Memory.read_insert {m : Memory} {d : Host.Cell} (h : ∀ c ∈ m, c.1 ≠ d.1) (b : Nat) :
    (m.insert d).read b = if b = d.1 then d.2 else m.read b := by
  induction m with
  | nil => simp [Memory.insert, Memory.read]
  | cons c m ih =>
    have hc : c.1 ≠ d.1 := h c (by simp)
    by_cases hd : d.1 < c.1
    · simp [Memory.insert, hd, Memory.read]
    · simp only [Memory.insert, if_neg hd, Memory.read, ih fun c' hc' => h c' (by simp [hc'])]
      by_cases hb : b = c.1
      · simp [hb, hc]
      · simp [hb]

/-- Read after write, at any two addresses. -/
theorem Memory.read_write (m : Memory) (a b : Nat) (v : Byte) :
    (m.write a v).read b = if b = a then v else m.read b := by
  unfold Memory.write
  split
  · next h => rw [Memory.read_erase, h]
  · rw [Memory.read_insert (d := (a, v)) fun c hc => (Memory.mem_erase.1 hc).2]
    by_cases hb : b = a
    · simp [hb]
    · simp [hb, Memory.read_erase]

@[simp] theorem Memory.read_write_same (m : Memory) (a : Nat) (v : Byte) : (m.write a v).read a = v := by
  simp [Memory.read_write]

theorem Memory.read_write_other {a b : Nat} (m : Memory) (v : Byte) (h : b ≠ a) : (m.write a v).read b = m.read b := by
  simp [Memory.read_write, h]

theorem Memory.wf_nil : Memory.wf [] := by simp [Memory.wf]

theorem Memory.wf_erase {m : Memory} (h : m.wf) (a : Nat) : (m.erase a).wf := by
  refine ⟨?_, fun c hc => h.2 c (Memory.mem_erase.1 hc).1⟩
  obtain ⟨hp, -⟩ := h
  induction m with
  | nil => exact .nil
  | cons c m ih =>
    rw [List.pairwise_cons] at hp
    by_cases hc : a = c.1
    · simpa only [Memory.erase, if_pos hc] using ih hp.2
    · simp only [Memory.erase, if_neg hc]
      exact .cons (fun d hd => hp.1 d (Memory.mem_erase.1 hd).1) (ih hp.2)

theorem Memory.wf_insert {m : Memory} {d : Host.Cell} (h : m.wf) (hd : d.2 ≠ unlistedByte) (hn : ∀ c ∈ m, c.1 ≠ d.1) :
    (m.insert d).wf := by
  refine ⟨?_, fun c hc => (Memory.mem_insert.1 hc).elim (fun e => e ▸ hd) (h.2 c)⟩
  obtain ⟨hp, -⟩ := h
  induction m with
  | nil => simp [Memory.insert]
  | cons c m ih =>
    have hp' := List.pairwise_cons.1 hp
    by_cases hc : d.1 < c.1
    · simp only [Memory.insert, if_pos hc]
      refine .cons (fun e he => ?_) hp
      obtain rfl | he := List.mem_cons.1 he
      · exact hc
      · exact hc.trans (hp'.1 e he)
    · simp only [Memory.insert, if_neg hc]
      refine .cons (fun e he => ?_) (ih (fun c' hc' => hn c' (by simp [hc'])) hp'.2)
      obtain rfl | he := Memory.mem_insert.1 he
      · have := hn c (by simp); omega
      · exact hp'.1 e he

/-- A write keeps the canonical form. -/
theorem Memory.wf_write {m : Memory} (h : m.wf) (a : Nat) (v : Byte) : (m.write a v).wf := by
  unfold Memory.write
  split
  · exact Memory.wf_erase h a
  · next hv => exact Memory.wf_insert (Memory.wf_erase h a) hv fun c hc => (Memory.mem_erase.1 hc).2

/-- A write lists no address but the one it writes and those listed before. -/
theorem Memory.mem_write {m : Memory} {a : Nat} {v : Byte} {c : Host.Cell} (h : c ∈ m.write a v) : c.1 = a ∨ c ∈ m := by
  unfold Memory.write at h
  split at h
  · exact .inr (Memory.mem_erase.1 h).1
  · obtain rfl | h := Memory.mem_insert.1 h
    · exact .inl rfl
    · exact .inr (Memory.mem_erase.1 h).1

/-- Storing a byte sequence keeps the canonical form. -/
theorem Memory.wf_store {m : Memory} (h : m.wf) (k : Nat) (r : List Byte) : (m.store k r).wf := by
  induction r generalizing m k with
  | nil => exact h
  | cons b r ih => exact ih (Memory.wf_write h k b) (k + 1)

/-- What storing a byte sequence leaves at an address: the sequence's byte where it reaches, the old byte elsewhere. -/
theorem Memory.read_store (m : Memory) (k : Nat) (r : List Byte) (a : Nat) :
    (m.store k r).read a = if k ≤ a then (r[a - k]?).getD (m.read a) else m.read a := by
  induction r generalizing m k with
  | nil => simp [Memory.store]
  | cons b r ih =>
    rw [Memory.store, ih, Memory.read_write]
    rcases Nat.lt_trichotomy a k with h | rfl | h
    · simp [show ¬k + 1 ≤ a by omega, show ¬k ≤ a by omega, h.ne]
    · simp
    · have e : a - k = (a - (k + 1)) + 1 := by omega
      simp [show k + 1 ≤ a by omega, h.le, h.ne', e]

/-- A stored frame reads back byte by byte. -/
theorem Memory.read_store_lt (m : Memory) (r : List Byte) {a : Nat} (h : a < r.length) : (m.store 0 r).read a = r[a] := by
  simp [Memory.read_store, h]

/-- Storing a byte sequence lists no address beyond it but those listed before. -/
theorem Memory.mem_store {m : Memory} {k : Nat} {r : List Byte} {c : Host.Cell} (h : c ∈ m.store k r) :
    (k ≤ c.1 ∧ c.1 < k + r.length) ∨ c ∈ m := by
  induction r generalizing m k with
  | nil => exact .inr h
  | cons b r ih =>
    obtain h | h := ih h
    · left; simp only [List.length_cons]; omega
    · obtain h | h := Memory.mem_write h
      · left; simp only [List.length_cons]; omega
      · exact .inr h

/-- The reset state's memory is in canonical form. -/
theorem reset_memory_wf : State.reset.mem.wf := Memory.wf_nil

@[simp] theorem State.length_frame (s : State) : s.frame.length = s.len := by simp [State.frame]

theorem State.getElem_frame (s : State) {a : Nat} (h : a < s.frame.length) : s.frame[a] = s.mem.read a := by
  simp [State.frame]

theorem State.getD_frame (s : State) {a : Nat} (h : a < s.len) (d : Byte) : s.frame.getD a d = s.mem.read a := by
  have h' : a < s.frame.length := by simpa using h
  rw [List.getD_eq_getElem _ _ h', s.getElem_frame h']

end Sys2Proof.Machine
end

