-- ==== Sys2Proof/Laws/State.lean ====
section
/-! SUPPORT. The fields of every state update, one lemma per field that a claim asks for. -/

namespace Sys2Proof.Machine

section Answer
variable (r : Response) (s : State)
@[simp] theorem State.answer_cfg : (s.answer r).cfg = s.cfg := rfl
@[simp] theorem State.answer_mem : (s.answer r).mem = s.mem := rfl
@[simp] theorem State.answer_len : (s.answer r).len = s.len := rfl
@[simp] theorem State.answer_phase : (s.answer r).phase = s.phase := rfl
@[simp] theorem State.answer_idx : (s.answer r).idx = s.idx := rfl
@[simp] theorem State.answer_response : (s.answer r).response = some r := rfl
@[simp] theorem State.answer_script : (s.answer r).script = s.script := rfl
@[simp] theorem State.answer_frame : (s.answer r).frame = s.frame := rfl
@[simp] theorem State.answer_answer (r' : Response) : (s.answer r').answer r = s.answer r := rfl
end Answer

section LoadFrame
variable (r : List Byte) (s : State)
@[simp] theorem State.loadFrame_cfg : (s.loadFrame r).cfg = s.cfg := rfl
@[simp] theorem State.loadFrame_mem : (s.loadFrame r).mem = Memory.store [] 0 r := rfl
@[simp] theorem State.loadFrame_len : (s.loadFrame r).len = r.length := rfl
@[simp] theorem State.loadFrame_phase : (s.loadFrame r).phase = .raw := rfl
@[simp] theorem State.loadFrame_idx : (s.loadFrame r).idx = s.idx := rfl
@[simp] theorem State.loadFrame_response : (s.loadFrame r).response = s.response := rfl
@[simp] theorem State.loadFrame_script : (s.loadFrame r).script = s.script := rfl
end LoadFrame

section DropFrame
variable (s : State)
@[simp] theorem State.dropFrame_cfg : s.dropFrame.cfg = s.cfg := rfl
@[simp] theorem State.dropFrame_mem : s.dropFrame.mem = [] := rfl
@[simp] theorem State.dropFrame_len : s.dropFrame.len = 0 := rfl
@[simp] theorem State.dropFrame_phase : s.dropFrame.phase = .empty := rfl
@[simp] theorem State.dropFrame_idx : s.dropFrame.idx = s.idx := rfl
@[simp] theorem State.dropFrame_response : s.dropFrame.response = s.response := rfl
@[simp] theorem State.dropFrame_script : s.dropFrame.script = s.script := rfl
end DropFrame

section PairStep
variable (i : Nat) (s : State)
@[simp] theorem State.pairStep_cfg : (s.pairStep i).cfg = s.cfg := rfl
@[simp] theorem State.pairStep_mem : (s.pairStep i).mem = Machine.pairStep s.mem i := rfl
@[simp] theorem State.pairStep_len : (s.pairStep i).len = s.len := rfl
@[simp] theorem State.pairStep_phase : (s.pairStep i).phase = s.phase := rfl
@[simp] theorem State.pairStep_idx : (s.pairStep i).idx = s.idx := rfl
@[simp] theorem State.pairStep_response : (s.pairStep i).response = s.response := rfl
@[simp] theorem State.pairStep_script : (s.pairStep i).script = s.script := rfl
@[simp] theorem descrRound_mem : (descrRound s i).mem = Machine.pairStep s.mem i := rfl
end PairStep

/-- The pass touches the buffer and the pair index only. -/
theorem foldl_descrRound (is : List Nat) (s : State) :
    ∃ j, is.foldl descrRound s = { s with mem := is.foldl Machine.pairStep s.mem, idx := j } := by
  induction is generalizing s with
  | nil => exact ⟨s.idx, rfl⟩
  | cons i is ih =>
    obtain ⟨j, h⟩ := ih (descrRound s i)
    exact ⟨j, by rw [List.foldl_cons, h]; rfl⟩

/-- DESCR's effect on the state (R68): the buffer's pair steps, `IDX` not live, phase DESCRAMBLED, nothing else. -/
theorem State.descrambleBuffer_eq (s : State) :
    s.descrambleBuffer =
      { s with mem := (pairIndices s.len).foldl Machine.pairStep s.mem, idx := none, phase := .descrambled } := by
  obtain ⟨j, h⟩ := foldl_descrRound (pairIndices s.len) s
  rw [State.descrambleBuffer, h]

section DescrambleBuffer
variable (s : State)
@[simp] theorem State.descrambleBuffer_cfg : s.descrambleBuffer.cfg = s.cfg := by rw [descrambleBuffer_eq]
@[simp] theorem State.descrambleBuffer_mem :
    s.descrambleBuffer.mem = (pairIndices s.len).foldl Machine.pairStep s.mem := by rw [descrambleBuffer_eq]
@[simp] theorem State.descrambleBuffer_len : s.descrambleBuffer.len = s.len := by rw [descrambleBuffer_eq]
@[simp] theorem State.descrambleBuffer_phase : s.descrambleBuffer.phase = .descrambled := rfl
@[simp] theorem State.descrambleBuffer_idx : s.descrambleBuffer.idx = none := rfl
@[simp] theorem State.descrambleBuffer_response : s.descrambleBuffer.response = s.response := by
  rw [descrambleBuffer_eq]
@[simp] theorem State.descrambleBuffer_script : s.descrambleBuffer.script = s.script := by rw [descrambleBuffer_eq]
end DescrambleBuffer

section Reset
variable (c : Config)
@[simp] theorem State.resetOf_cfg : (State.resetOf c).cfg = c := rfl
@[simp] theorem State.resetOf_mem : (State.resetOf c).mem = [] := rfl
@[simp] theorem State.resetOf_len : (State.resetOf c).len = 0 := rfl
@[simp] theorem State.resetOf_phase : (State.resetOf c).phase = .empty := rfl
@[simp] theorem State.resetOf_idx : (State.resetOf c).idx = none := rfl
@[simp] theorem State.resetOf_response : (State.resetOf c).response = none := rfl
@[simp] theorem State.resetOf_script : (State.resetOf c).script = [] := rfl
end Reset

section FetchWord
variable (s : State) (nbits w : Nat)
@[simp] theorem State.withFetchWord_cfg : (s.withFetchWord nbits w).cfg = s.cfg := rfl
@[simp] theorem State.withFetchWord_mem : (s.withFetchWord nbits w).mem = s.mem := rfl
@[simp] theorem State.withFetchWord_len : (s.withFetchWord nbits w).len = s.len := rfl
@[simp] theorem State.withFetchWord_phase : (s.withFetchWord nbits w).phase = s.phase := rfl
@[simp] theorem State.withFetchWord_idx : (s.withFetchWord nbits w).idx = s.idx := rfl
@[simp] theorem State.withFetchWord_response : (s.withFetchWord nbits w).response = s.response := rfl
@[simp] theorem State.withFetchWord_script :
    (s.withFetchWord nbits w).script = bareRequest (BitVec.ofNat 8 w) :: s.script := rfl
end FetchWord

section Popped
variable (s : State) (qs : List Request)
@[simp] theorem State.withScript_frame : State.frame { s with script := qs } = s.frame := rfl
end Popped

end Sys2Proof.Machine
end

