-- ==== Sys2Proof/Laws/Descramble.lean ====
section
/-! SUPPORT. The pair step and the pass: what they read and write, and that they keep the buffer's form. -/

namespace Sys2Proof.Machine

/-- `0xFF - x` is the complement (R67). -/
theorem complement_eq (x : Byte) : 0xFF - x = ~~~x := BitVec.allOnes_sub_eq_not x

theorem pairIndices_mem {n i : Nat} (h : i ∈ pairIndices n) : 1 ≤ i ∧ i < n := by
  induction n using pairIndices.induct with
  | case1 => simp [pairIndices] at h
  | case2 => simp [pairIndices] at h
  | case3 n ih =>
    obtain rfl | h := List.mem_cons.1 h
    · omega
    · have := ih h; omega

/-- A pair step, cell by cell (R65). -/
theorem read_pairStep (m : Memory) (i a : Nat) :
    (pairStep m i).read a =
      if a = i - 1 then newLower (m.read i) (m.read (i - 1))
      else if a = i then newUpper (m.read i) (m.read (i - 1)) else m.read a := by
  simp only [pairStep, Memory.read_write]

theorem wf_pairStep {m : Memory} (h : m.wf) (i : Nat) : (pairStep m i).wf :=
  Memory.wf_write (Memory.wf_write h _ _) _ _

theorem mem_pairStep {m : Memory} {i : Nat} {c : Host.Cell} (h : c ∈ pairStep m i) :
    c.1 = i ∨ c.1 = i - 1 ∨ c ∈ m := by
  obtain h | h := Memory.mem_write h
  · exact .inr (.inl h)
  · obtain h | h := Memory.mem_write h
    · exact .inl h
    · exact .inr (.inr h)

/-- The pass keeps the canonical form. -/
theorem wf_foldl_pairStep (is : List Nat) {m : Memory} (h : m.wf) : (is.foldl pairStep m).wf := by
  induction is generalizing m with
  | nil => exact h
  | cons i is ih => exact ih (wf_pairStep h i)

/-- The pass lists no cell at `n` or above that was not listed before. -/
theorem mem_foldl_pairStep {n : Nat} {is : List Nat} (hi : ∀ i ∈ is, i < n) {m : Memory} {c : Host.Cell}
    (h : c ∈ is.foldl pairStep m) : c.1 < n ∨ c ∈ m := by
  induction is generalizing m with
  | nil => exact .inr h
  | cons i is ih =>
    obtain h | h := ih (fun j hj => hi j (by simp [hj])) h
    · exact .inl h
    · have := hi i (by simp)
      obtain h | h | h := mem_pairStep h
      · left; omega
      · left; omega
      · exact .inr h

/-- The pass leaves the cells at `n` and above alone (R66). -/
theorem read_foldl_pairStep {n : Nat} {is : List Nat} (hi : ∀ i ∈ is, 1 ≤ i ∧ i < n) (m : Memory) {a : Nat}
    (ha : n ≤ a) : (is.foldl pairStep m).read a = m.read a := by
  induction is generalizing m with
  | nil => rfl
  | cons i is ih =>
    have h := hi i (by simp)
    rw [List.foldl_cons, ih (fun j hj => hi j (by simp [hj])), read_pairStep]
    simp [show ¬a = i - 1 by omega, show ¬a = i by omega]

@[simp] theorem length_pairStepOn (b : List Byte) (i : Nat) : (pairStepOn b i).length = b.length := by
  simp [pairStepOn]

@[simp] theorem length_foldl_pairStepOn (is : List Nat) (b : List Byte) :
    (is.foldl pairStepOn b).length = b.length := by
  induction is generalizing b with
  | nil => rfl
  | cons i is ih => rw [List.foldl_cons, ih, length_pairStepOn]

end Sys2Proof.Machine
end

