-- ==== Sys2Proof/Laws/Operands.lean ====
section
/-! SUPPORT. The read primitives: when they answer, with what, and that they read the buffer only. -/

namespace Sys2Proof.Machine

/-- The two-byte read, byte by byte (R33). -/
theorem Memory.readN_two (m : Memory) (a : Nat) : m.readN a 2 = 256 * (m.read a).toNat + (m.read (a + 1)).toNat := by
  simp [Memory.readN]

/-- The `i16` of two bytes is the signed reading of their 16-bit concatenation (R47). -/
theorem sext16_bytes (hi lo : Byte) : sext16 (256 * hi.toNat + lo.toNat) = (hi ++ lo).toInt := by
  have h1 := hi.isLt
  have h2 := lo.isLt
  have e : (hi ++ lo).toNat = 256 * hi.toNat + lo.toNat := by
    rw [BitVec.toNat_append, Nat.shiftLeft_eq, Nat.mul_comm, ← Nat.two_pow_add_eq_or_of_lt h2]
  rw [BitVec.toInt_eq_toNat_cond, e, sext16]
  norm_num
  split_ifs <;> omega

/-- The range of an `i16` (R81). -/
theorem sext16_range {v : Nat} (h : v < 65536) : -32768 ≤ sext16 v ∧ sext16 v ≤ 32767 := by
  unfold sext16; split <;> omega

theorem readI16_ok {o : Nat} {s : State} (h : o + 1 < s.len) :
    readI16 o s = .ok (sext16 (256 * (s.mem.read o).toNat + (s.mem.read (o + 1)).toNat)) := by
  rw [readI16, if_neg (by omega), Memory.readN_two]

theorem readI16_error {o : Nat} {s : State} (h : s.len ≤ o + 1) : readI16 o s = .error o := by
  rw [readI16, if_pos h]

theorem readU8_ok {o : Nat} {s : State} (h : o < s.len) : readU8 o s = .ok (s.mem.read o) := by
  rw [readU8, if_neg (by omega)]

theorem readU8_error {o : Nat} {s : State} (h : s.len ≤ o) : readU8 o s = .error o := by
  rw [readU8, if_pos h]

theorem fieldI16_ok {f : FieldName} {o : Nat} {s : State} (h : o + 1 < s.len) :
    fieldI16 f o s = .ok (sext16 (256 * (s.mem.read o).toNat + (s.mem.read (o + 1)).toNat)) := by
  rw [fieldI16, readI16_ok h, asField]

theorem fieldI16_error {f : FieldName} {o : Nat} {s : State} (h : s.len ≤ o + 1) : fieldI16 f o s = .error ⟨f, o⟩ := by
  rw [fieldI16, readI16_error h, asField]

theorem fieldU8_ok {f : FieldName} {o : Nat} {s : State} (h : o < s.len) : fieldU8 f o s = .ok (s.mem.read o) := by
  rw [fieldU8, readU8_ok h, asField]

theorem fieldU8_error {f : FieldName} {o : Nat} {s : State} (h : s.len ≤ o) : fieldU8 f o s = .error ⟨f, o⟩ := by
  rw [fieldU8, readU8_error h, asField]

@[simp] theorem readI16_answer (o : Nat) (r : Response) (s : State) : readI16 o (s.answer r) = readI16 o s := rfl
@[simp] theorem readU8_answer (o : Nat) (r : Response) (s : State) : readU8 o (s.answer r) = readU8 o s := rfl
@[simp] theorem fieldI16_answer (f : FieldName) (o : Nat) (r : Response) (s : State) :
    fieldI16 f o (s.answer r) = fieldI16 f o s := rfl
@[simp] theorem fieldU8_answer (f : FieldName) (o : Nat) (r : Response) (s : State) :
    fieldU8 f o (s.answer r) = fieldU8 f o s := rfl

/-- A read command answers, and changes nothing but the answer. -/
theorem answerRead_eq {α : Type} (result : α → Result) (v : Except Nat α) (s : State) :
    ∃ r, answerRead result v s = .next (s.answer r) := by
  cases v with
  | ok v => exact ⟨_, rfl⟩
  | error o => exact ⟨_, rfl⟩

/-- A field operation answers, and changes nothing but the answer. -/
theorem answerField_eq {α : Type} (result : α → Result) (v : Except DecodeError α) (s : State) :
    ∃ r, answerField result v s = .next (s.answer r) := by
  cases v with
  | ok v => exact ⟨_, rfl⟩
  | error o => exact ⟨_, rfl⟩

end Sys2Proof.Machine
end

