-- ==== Sys2Proof/Laws/Exec.lean ====
section
/-! SUPPORT. What one operation and one step can do, said once. -/

namespace Sys2Proof.Machine

theorem whenAdmitted_pos {c : HostCommand} {s : State} {k : State → Host.Outcome State Fault Refusal}
    (h : admits c s.phase = true) : whenAdmitted c s k = k s := by simp [whenAdmitted, h]

theorem whenAdmitted_neg {c : HostCommand} {s : State} {k : State → Host.Outcome State Fault Refusal}
    (h : admits c s.phase = false) : whenAdmitted c s k = .next (s.answer (.refused (.wrongPhase c s.phase))) := by
  simp [whenAdmitted, h, refuse]

theorem whenFits_pos {r : List Byte} {s : State} {k : State → Host.Outcome State Fault Refusal}
    (h : s.cfg.lenMax.admits r.length = true) : whenFits r s k = k s := by simp [whenFits, h]

theorem whenFits_neg {r : List Byte} {s : State} {k : State → Host.Outcome State Fault Refusal}
    (h : s.cfg.lenMax.admits r.length = false) :
    whenFits r s k = .next (s.answer (.refused (.frameTooLong r.length))) := by
  simp [whenFits, h, refuse]

@[simp] theorem admits_load (p : Phase) : admits .load p = true := rfl
@[simp] theorem admits_clear (p : Phase) : admits .clear p = true := rfl
@[simp] theorem admits_decode (p : Phase) : admits .decode p = true := rfl
theorem admits_descr {p : Phase} : admits .descr p = true ↔ p = .raw := by cases p <;> simp [admits]
theorem admits_map {p : Phase} : admits .map p = true ↔ p = .descrambled := by cases p <;> simp [admits]
theorem admits_rdi16 {p : Phase} : admits .rdi16 p = true ↔ p ≠ .empty := by cases p <;> simp [admits]
theorem admits_rdu8 {p : Phase} : admits .rdu8 p = true ↔ p ≠ .empty := by cases p <;> simp [admits]

theorem execClear_eq (s : State) : execClear s = .next (s.dropFrame.answer (.ok .done)) := rfl

theorem execLoad_eq (r : List Byte) (s : State) :
    execLoad r s = if s.cfg.lenMax.admits r.length then .next ((s.loadFrame r).answer (.ok .done))
      else .next (s.answer (.refused (.frameTooLong r.length))) := by
  unfold execLoad whenAdmitted whenFits; rfl

theorem execDecode_eq (r : List Byte) (s : State) :
    execDecode r s = if s.cfg.lenMax.admits r.length then
        .next ((s.loadFrame r).descrambleBuffer.answer (mapResponse (s.loadFrame r).descrambleBuffer))
      else .next (s.answer (.refused (.frameTooLong r.length))) := by
  unfold execDecode whenAdmitted whenFits; rfl

theorem execDescr_eq (s : State) :
    execDescr s = if s.phase = .raw then .next (s.descrambleBuffer.answer (.ok .done))
      else .next (s.answer (.refused (.wrongPhase .descr s.phase))) := by
  unfold execDescr whenAdmitted refuse; simp only [admits_descr]

theorem execMap_eq (s : State) :
    execMap s = if s.phase = .descrambled then .next (s.answer (mapResponse s))
      else .next (s.answer (.refused (.wrongPhase .map s.phase))) := by
  unfold execMap whenAdmitted refuse; simp only [admits_map]

theorem execRdi16_eq (o : Nat) (s : State) :
    execRdi16 o s = if s.phase ≠ .empty then answerRead .i16 (readI16 o s) s
      else .next (s.answer (.refused (.wrongPhase .rdi16 s.phase))) := by
  unfold execRdi16 whenAdmitted refuse; simp only [admits_rdi16]

theorem execRdu8_eq (o : Nat) (s : State) :
    execRdu8 o s = if s.phase ≠ .empty then answerRead .u8 (readU8 o s) s
      else .next (s.answer (.refused (.wrongPhase .rdu8 s.phase))) := by
  unfold execRdu8 whenAdmitted refuse; simp only [admits_rdu8]

/-- MAP's answer does not see the answer before it, nor the pending script. -/
@[simp] theorem mapResponse_answer (r : Response) (s : State) : mapResponse (s.answer r) = mapResponse s := rfl

/-- The operations that read only: whatever they answer, the block is as it was. -/
theorem exec_reads {i : Instr} (s : State)
    (h : i ≠ .clear ∧ i ≠ .descr ∧ i ≠ .dstep ∧ (∀ r, i ≠ .load r) ∧ ∀ r, i ≠ .decode r) :
    ∃ r, exec i s = .next (s.answer r) := by
  obtain ⟨h1, h2, h3, h4, h5⟩ := h
  cases i with
  | clear => exact absurd rfl h1
  | load r => exact absurd rfl (h4 r)
  | descr => exact absurd rfl h2
  | decode r => exact absurd rfl (h5 r)
  | dstep => exact absurd rfl h3
  | map => simp only [exec, execMap_eq]; split <;> exact ⟨_, rfl⟩
  | rdi16 o =>
    simp only [exec, execRdi16_eq]
    split
    · exact answerRead_eq ..
    · exact ⟨_, rfl⟩
  | rdu8 o =>
    simp only [exec, execRdu8_eq]
    split
    · exact answerRead_eq ..
    · exact ⟨_, rfl⟩
  | hVer => exact answerField_eq ..
  | hProd => exact answerField_eq ..
  | fPh => exact answerField_eq ..
  | fEc => exact answerField_eq ..
  | fSalt => exact answerField_eq ..
  | fTds => exact answerField_eq ..
  | fOrp => exact answerField_eq ..
  | fCl => exact answerField_eq ..
  | fTemp => exact answerField_eq ..
  | fBatt => exact answerField_eq ..
  | hHold => exact answerField_eq ..
  | hBklt => exact answerField_eq ..

/-- Everything one operation can do when it answers a next state. -/
theorem exec_next_cases {i : Instr} {s t : State} (h : exec i s = .next t) :
    (∃ r, t = s.answer r ∧ i ≠ .clear ∧ i ≠ .dstep ∧ (i = .descr → s.phase ≠ .raw)
        ∧ ∀ r, i = .load r ∨ i = .decode r → s.cfg.lenMax.admits r.length = false)
    ∨ (i = .clear ∧ t = s.dropFrame.answer (.ok .done))
    ∨ (∃ r, i = .load r ∧ s.cfg.lenMax.admits r.length = true ∧ t = (s.loadFrame r).answer (.ok .done))
    ∨ (i = .descr ∧ s.phase = .raw ∧ t = s.descrambleBuffer.answer (.ok .done))
    ∨ (∃ r, i = .decode r ∧ s.cfg.lenMax.admits r.length = true
        ∧ t = (s.loadFrame r).descrambleBuffer.answer (mapResponse (s.loadFrame r).descrambleBuffer))
    ∨ (∃ j, i = .dstep ∧ s.idx = some j ∧ 1 ≤ j ∧ j < s.len ∧ t = (s.pairStep j).answer (.ok .done)) := by
  by_cases hr : i ≠ .clear ∧ i ≠ .descr ∧ i ≠ .dstep ∧ (∀ r, i ≠ .load r) ∧ ∀ r, i ≠ .decode r
  · obtain ⟨r, e⟩ := exec_reads s hr
    rw [e] at h
    cases h
    obtain ⟨h1, h2, h3, h4, h5⟩ := hr
    exact .inl ⟨r, rfl, h1, h3, fun e => absurd e h2, fun r' e => (e.elim (h4 r') (h5 r')).elim⟩
  · cases i with
    | clear =>
      simp only [exec, execClear_eq] at h
      cases h
      exact .inr (.inl ⟨rfl, rfl⟩)
    | load r =>
      simp only [exec, execLoad_eq] at h
      split at h
      · cases h; exact .inr (.inr (.inl ⟨r, rfl, ‹_›, rfl⟩))
      · next hn =>
        cases h
        refine .inl ⟨_, rfl, nofun, nofun, nofun, ?_⟩
        rintro r' (e | e)
        · cases e; exact Bool.eq_false_iff.2 hn
        · cases e
    | descr =>
      simp only [exec, execDescr_eq] at h
      split at h
      · cases h; exact .inr (.inr (.inr (.inl ⟨rfl, ‹_›, rfl⟩)))
      · cases h; exact .inl ⟨_, rfl, nofun, nofun, fun _ => ‹_›, fun r e => by rcases e with e | e <;> cases e⟩
    | decode r =>
      simp only [exec, execDecode_eq] at h
      split at h
      · cases h; exact .inr (.inr (.inr (.inr (.inl ⟨r, rfl, ‹_›, rfl⟩))))
      · next hn =>
        cases h
        refine .inl ⟨_, rfl, nofun, nofun, nofun, ?_⟩
        rintro r' (e | e)
        · cases e
        · cases e; exact Bool.eq_false_iff.2 hn
    | dstep =>
      simp only [exec, execDstep] at h
      split at h
      · cases h
      · next j hj =>
        split at h
        · next hb => cases h; exact .inr (.inr (.inr (.inr (.inr ⟨j, rfl, hj, hb.1, hb.2, rfl⟩))))
        · cases h
    | _ => simp at hr

/-- The answer to a request that stands for no operation names the request's code (R58). -/
theorem refuseUnknown_eq {q : Request} {e : Reject} (h : decodeRequest q = .error e) (s : State) :
    refuseUnknown e s = .next (s.answer (.refused (.unknownCommand q.code))) := by
  obtain rfl | rfl := decodeRequest_error h <;> rfl

/-- Everything one step can do when it answers a next state. -/
theorem step_next_cases {s t : State} (h : step s = .next t) :
    (s.script = [] ∧ t = s)
    ∨ ∃ q rest, s.script = q :: rest
        ∧ ((∃ e, decodeRequest q = .error e
              ∧ t = State.answer (.refused (.unknownCommand q.code)) { s with script := rest })
            ∨ ∃ i, decodeRequest q = .ok i ∧ exec i { s with script := rest } = .next t) := by
  unfold step at h
  split at h
  · next hs => cases h; exact .inl ⟨hs, rfl⟩
  · next q rest hs =>
    refine .inr ⟨q, rest, hs, ?_⟩
    split at h
    · next i hi => exact .inr ⟨i, hi, h⟩
    · next e he =>
      rw [refuseUnknown_eq he] at h
      cases h
      exact .inl ⟨e, he, rfl⟩

end Sys2Proof.Machine
end

