-- ==== Sys2Proof/Laws/Numbers.lean ====
section
/-! SUPPORT. The clamp, the rounding and the scalings in the spelling of the rules. -/

namespace Sys2Proof.Machine

theorem clamp_bounds (v : Int) {lo hi : Int} (h : lo ≤ hi) : lo ≤ clamp v lo hi ∧ clamp v lo hi ≤ hi := by
  unfold clamp; split_ifs <;> omega

theorem clamp_of_lt {v lo hi : Int} (h : v < lo) : clamp v lo hi = lo := by simp [clamp, h]

theorem clamp_of_gt {v lo hi : Int} (h : hi < v) (hl : lo ≤ hi) : clamp v lo hi = hi := by
  simp [clamp, h, show ¬v < lo by omega]

theorem clamp_of_mem {v lo hi : Int} (h : lo ≤ v) (h' : v ≤ hi) : clamp v lo hi = v := by
  simp [clamp, show ¬v < lo by omega, show ¬hi < v by omega]

theorem scalePh_eq (raw : Int) : scalePh raw = (raw : Rat) / 100 := by
  simp [scalePh, Rat.mkRat_eq_div]

theorem scaleSalt_eq (raw : Int) : scaleSalt raw = (raw : Rat) * 11 / 20 := by
  simp [scaleSalt, Rat.mkRat_eq_div]

theorem scaleOrp_eq (raw : Int) : scaleOrp raw = (raw : Rat) / 1000 := by
  simp [scaleOrp, Rat.mkRat_eq_div]

theorem scaleTemp_eq (raw : Int) : scaleTemp raw = (raw : Rat) / 10 := by
  simp [scaleTemp, Rat.mkRat_eq_div]

theorem scaleCl_eq (raw : Int) : scaleCl raw = if raw < 0 then 0 else (raw : Rat) / 10 := by
  simp [scaleCl, Rat.mkRat_eq_div]

/-- The divisor of R99 is not zero (R139). -/
theorem Config.span_ne_zero (c : Config) : c.batt100.toInt - c.batt0.toInt ≠ 0 := fun h =>
  c.distinct (BitVec.eq_of_toInt_eq (by omega))

theorem battQuotient_eq (c : Config) (raw : Int) :
    battQuotient c raw = 100 * ((raw : Rat) - c.batt0.toInt) / ((c.batt100.toInt : Rat) - c.batt0.toInt) := by
  simp [battQuotient, Rat.divInt_eq_div]

/-- The floor and the fraction `round` works with. -/
theorem floor_split (q : Rat) :
    q = (q.num / (q.den : Int) : Int) + ((q.num % (q.den : Int) : Int) : Rat) / q.den := by
  have hd : (q.den : Rat) ≠ 0 := by exact_mod_cast q.den_nz
  have h : ((q.den : Int) * (q.num / (q.den : Int)) + q.num % (q.den : Int) : Int) = q.num :=
    Int.mul_ediv_add_emod q.num q.den
  have h' : (q.den : Rat) * ((q.num / (q.den : Int) : Int) : Rat) + ((q.num % (q.den : Int) : Int) : Rat) = q.num := by
    exact_mod_cast h
  conv_lhs => rw [← Rat.num_div_den q]
  field_simp
  linarith

/-- What `round` answers (R99): an integer at most one half away, and at an exact half the one `ROUND_TIE` names. -/
theorem roundRat_spec (tie : RoundTie) (q : Rat) :
    |q - roundRat tie q| ≤ 1 / 2 ∧
      (|q - roundRat tie q| = 1 / 2 →
        (tie = .halfEven → Even (roundRat tie q)) ∧ (tie = .halfUp → q < roundRat tie q)
        ∧ (tie = .halfAway → |q| < |(roundRat tie q : Rat)|)) := by
  have hd : 0 < (q.den : Int) := by exact_mod_cast q.den_pos
  have hdq : (0 : Rat) < q.den := by exact_mod_cast hd
  have hs := floor_split q
  have h0 := Int.emod_nonneg q.num (ne_of_gt hd)
  have h1 := Int.emod_lt_of_pos q.num hd
  simp only [roundRat]
  generalize q.num / (q.den : Int) = f at *
  generalize q.num % (q.den : Int) = r at *
  have hx0 : (0 : Rat) ≤ (r : Rat) / q.den := by positivity
  have hx1 : (r : Rat) / q.den < 1 := by rw [div_lt_one hdq]; exact_mod_cast h1
  have below : 2 * r < q.den → (r : Rat) / q.den < 1 / 2 := fun h => by
    have : (2 * r : Rat) < q.den := by exact_mod_cast h
    rw [div_lt_iff₀ hdq]; linarith
  have above : (q.den : Int) < 2 * r → 1 / 2 < (r : Rat) / q.den := fun h => by
    have : (q.den : Rat) < 2 * r := by exact_mod_cast h
    rw [lt_div_iff₀ hdq]; linarith
  have half : 2 * r = q.den → (r : Rat) / q.den = 1 / 2 := fun h => by
    have : (2 * r : Rat) = q.den := by exact_mod_cast h
    rw [div_eq_iff hdq.ne']; linarith
  generalize (r : Rat) / q.den = x at *
  have down : q - (f : Int) = x := by linarith
  have up : q - ((f + 1 : Int) : Rat) = x - 1 := by push_cast; linarith
  by_cases c1 : 2 * r < q.den
  · have := below c1
    simp only [if_pos c1, down, abs_of_nonneg hx0]
    exact ⟨this.le, fun h => absurd h this.ne⟩
  · by_cases c2 : (q.den : Int) < 2 * r
    · have := above c2
      simp only [if_neg c1, if_pos c2, up, abs_of_neg (show x - 1 < 0 by linarith)]
      exact ⟨by linarith, fun h => by linarith⟩
    · obtain rfl : x = 1 / 2 := half (by omega)
      have up' : |q - ((f + 1 : Int) : Rat)| = 1 / 2 := by rw [up]; norm_num
      have down' : |q - (f : Rat)| = 1 / 2 := by rw [down]; norm_num
      simp only [if_neg c1, if_neg c2]
      cases tie
      · by_cases c : f % 2 = 0
        · simp only [if_pos c, down']
          exact ⟨le_rfl, fun _ => ⟨fun _ => Int.even_iff.2 c, nofun, nofun⟩⟩
        · simp only [if_neg c, up']
          exact ⟨le_rfl, fun _ => ⟨fun _ => Int.even_iff.2 (by omega), nofun, nofun⟩⟩
      · by_cases c : q.num < 0
        · simp only [if_pos c, down']
          have hq : q < 0 := Rat.num_neg.1 c
          refine ⟨le_rfl, fun _ => ⟨nofun, nofun, fun _ => ?_⟩⟩
          rw [abs_of_neg hq, abs_of_neg (by linarith)]; linarith
        · simp only [if_neg c, up']
          have hq : 0 ≤ q := Rat.num_nonneg.1 (by omega)
          refine ⟨le_rfl, fun _ => ⟨nofun, nofun, fun _ => ?_⟩⟩
          rw [abs_of_nonneg hq, abs_of_pos (by push_cast; linarith)]; push_cast; linarith
      · simp only [up']
        exact ⟨le_rfl, fun _ => ⟨nofun, fun _ => by push_cast; linarith, nofun⟩⟩

end Sys2Proof.Machine
end

