-- ==== Sys2Proof/Laws/PerInstr.lean ====
section
/-! SUPPORT. Facts about every operation as syntax, one lemma per constructor. -/

namespace Sys2Proof.Laws

/-- The class number `OP[7:4]` of a class (R57). -/
def classNumber : OpClass → Nat
  | .host => 0
  | .field => 1
  | .internal => 2

/-- An operation's code has the operation's class in its upper four bits (R57). -/
def CodeClass.Statement (i : Instr) : Prop := codeClass (codeOf i) = classNumber i.opClass

theorem CodeClass.clear : CodeClass.Statement .clear := rfl
theorem CodeClass.load (r : List Byte) : CodeClass.Statement (.load r) := (rfl : codeClass 0x01 = 0)
theorem CodeClass.descr : CodeClass.Statement .descr := rfl
theorem CodeClass.map : CodeClass.Statement .map := rfl
theorem CodeClass.decode (r : List Byte) : CodeClass.Statement (.decode r) := (rfl : codeClass 0x04 = 0)
theorem CodeClass.rdi16 (offset : Nat) : CodeClass.Statement (.rdi16 offset) := (rfl : codeClass 0x05 = 0)
theorem CodeClass.rdu8 (offset : Nat) : CodeClass.Statement (.rdu8 offset) := (rfl : codeClass 0x06 = 0)
theorem CodeClass.hVer : CodeClass.Statement .hVer := rfl
theorem CodeClass.hProd : CodeClass.Statement .hProd := rfl
theorem CodeClass.fPh : CodeClass.Statement .fPh := rfl
theorem CodeClass.fEc : CodeClass.Statement .fEc := rfl
theorem CodeClass.fSalt : CodeClass.Statement .fSalt := rfl
theorem CodeClass.fTds : CodeClass.Statement .fTds := rfl
theorem CodeClass.fOrp : CodeClass.Statement .fOrp := rfl
theorem CodeClass.fCl : CodeClass.Statement .fCl := rfl
theorem CodeClass.fTemp : CodeClass.Statement .fTemp := rfl
theorem CodeClass.fBatt : CodeClass.Statement .fBatt := rfl
theorem CodeClass.hHold : CodeClass.Statement .hHold := rfl
theorem CodeClass.hBklt : CodeClass.Statement .hBklt := rfl
theorem CodeClass.dstep : CodeClass.Statement .dstep := rfl

end Sys2Proof.Laws
end

