-- ==== Sys2Proof/Tests/Slice0.lean ====
section
/-! SUPPORT. The model's own tests: small facts whose expected values are the spec's worked examples (S, V and P of
95_test_vectors.md) or its tables, and for every statement with hypotheses a state and operands that meet them. -/

namespace Sys2Proof.Tests

open Sys2Proof.Machine

/-! ### Small states -/

/-- A block of configuration `c` in phase `p` that holds the bytes `bs`. -/
def blockOf (c : Config) (p : Phase) (bs : List Byte) : State :=
  { State.resetOf c with mem := Memory.store [] 0 bs, len := bs.length, phase := p }

/-- A block of the default configuration. -/
def block (p : Phase) (bs : List Byte) : State := blockOf Config.default p bs

def strictConfig : Config := { Config.default with mode := .strict }
def halfUpConfig : Config := { Config.default with roundTie := .halfUp }
def halfAwayConfig : Config := { Config.default with roundTie := .halfAway }
def unboundedConfig : Config := { Config.default with lenMax := ⟨none, rfl⟩ }

/-- The inverted pair of V31. -/
def invertedConfig : Config := { Config.default with batt0 := 4200, batt100 := 3000, distinct := by decide }

/-- The source's literal vector S1, raw and descrambled. -/
def rawS1 : List Byte := [0x00, 0xFF, 0x0F, 0xF0]
def descrS1 : List Byte := [0xFF, 0xF5, 0xA0, 0x5A]

/-- P2's frame, raw and descrambled. -/
def rawP2 : List Byte :=
  [0xFD, 0xAA, 0xFF, 0x76, 0xF6, 0x8A, 0xFD, 0xAF, 0xFC, 0x6F, 0xFF, 0x96, 0xFD, 0xF8, 0xDF, 0x7B, 0xDF, 0x79]
def descrP2 : List Byte :=
  [0x00, 0x01, 0x02, 0x02, 0xEE, 0x04, 0xB0, 0x03, 0x20, 0x01, 0xC2, 0x00, 0x1E, 0x01, 0x09, 0x10, 0x68, 0x18]

/-- P4's descrambled frame. -/
def descrP4 : List Byte :=
  [0xAB, 0x07, 0x21, 0xFF, 0xFF, 0xFF, 0xFB, 0x80, 0x00, 0xFF, 0x38, 0xFF, 0xFB, 0xFF, 0xF1, 0x0B, 0xBE, 0xF7,
   0xDE, 0xAD]

/-- P3's short raw frame (a). -/
def rawP3 : List Byte := [0xFD, 0xAA, 0xFF, 0x76, 0xF6, 0x8A, 0xFD, 0xAF, 0xFC, 0x6F]

/-- A descrambled block of 17 bytes, all zero but the battery bytes (R46). -/
def batteryBlock (c : Config) (hi lo : Byte) : State :=
  blockOf c .descrambled [0, 0, 0, 0, 0, 0, 0, 0, 0, 0, 0, 0, 0, 0, 0, hi, lo]

/-- The state of an outcome that has one. -/
def nextOf : Host.Outcome State Fault Refusal → Option State
  | .next t => some t
  | .fault _ => none
  | .refused _ => none

/-- The reason a run stopped, if it stopped with a fault. -/
def faultOf : Host.Outcome State Fault Refusal → Option Fault
  | .next _ => none
  | .fault f => some f
  | .refused _ => none

/-- What an outcome answers. -/
def answerOf : Host.Outcome State Fault Refusal → Option Response
  | .next t => t.response
  | .fault _ => none
  | .refused _ => none

/-- The frame an outcome leaves in the buffer. -/
def frameAfter : Host.Outcome State Fault Refusal → Option (List Byte)
  | .next t => some t.frame
  | .fault _ => none
  | .refused _ => none

/-! ### Well-formedness: one ill-formed term per check -/

theorem test_wf_load_of_33_bytes : (Instr.load (List.replicate 33 0)).wf Config.default = false := by decide
theorem test_wf_load_of_32_bytes : (Instr.load (List.replicate 32 0)).wf Config.default = true := by decide
theorem test_wf_decode_of_33_bytes : (Instr.decode (List.replicate 33 0)).wf Config.default = false := by decide
theorem test_wf_unassigned_code : Request.wf { issuer := .host, code := 0x07 } = false := by decide
theorem test_wf_host_asks_for_field_operation : Request.wf { issuer := .host, code := 0x12 } = false := by decide
theorem test_wf_sequencer_asks_for_host_command : Request.wf { issuer := .sequencer, code := 0x00 } = false := by decide
theorem test_wf_frame_on_clear : Request.wf { issuer := .host, code := 0x00, frame := [1] } = false := by decide
theorem test_wf_offset_on_load : Request.wf { issuer := .host, code := 0x01, frame := [1], offset := 1 } = false := by
  decide
theorem test_wf_load : Request.wf { issuer := .host, code := 0x01, frame := [1] } = true := by decide

/-! ### Decoding: every code of R56, written out bit by bit -/

theorem test_decode_clear : decodeTableWord 8 0b00000000 = some .clear := by decide
theorem test_decode_load : decodeTableWord 8 0b00000001 = some (.load []) := by decide
theorem test_decode_descr : decodeTableWord 8 0b00000010 = some .descr := by decide
theorem test_decode_map : decodeTableWord 8 0b00000011 = some .map := by decide
theorem test_decode_decode : decodeTableWord 8 0b00000100 = some (.decode []) := by decide
theorem test_decode_rdi16 : decodeTableWord 8 0b00000101 = some (.rdi16 0) := by decide
theorem test_decode_rdu8 : decodeTableWord 8 0b00000110 = some (.rdu8 0) := by decide
theorem test_decode_hVer : decodeTableWord 8 0b00010000 = some .hVer := by decide
theorem test_decode_hProd : decodeTableWord 8 0b00010001 = some .hProd := by decide
theorem test_decode_fPh : decodeTableWord 8 0b00010010 = some .fPh := by decide
theorem test_decode_fEc : decodeTableWord 8 0b00010011 = some .fEc := by decide
theorem test_decode_fSalt : decodeTableWord 8 0b00010100 = some .fSalt := by decide
theorem test_decode_fTds : decodeTableWord 8 0b00010101 = some .fTds := by decide
theorem test_decode_fOrp : decodeTableWord 8 0b00010110 = some .fOrp := by decide
theorem test_decode_fCl : decodeTableWord 8 0b00010111 = some .fCl := by decide
theorem test_decode_fTemp : decodeTableWord 8 0b00011000 = some .fTemp := by decide
theorem test_decode_fBatt : decodeTableWord 8 0b00011001 = some .fBatt := by decide
theorem test_decode_hHold : decodeTableWord 8 0b00011010 = some .hHold := by decide
theorem test_decode_hBklt : decodeTableWord 8 0b00011011 = some .hBklt := by decide
theorem test_decode_dstep : decodeTableWord 8 0b00100000 = some .dstep := by decide

/-- V42 and the gaps of R58. -/
theorem test_decode_refuses_gaps :
    decodeTableWord 8 0x07 = none ∧ decodeTableWord 8 0x0F = none ∧ decodeTableWord 8 0x1C = none
    ∧ decodeTableWord 8 0x21 = none ∧ decodeTableWord 8 0x30 = none ∧ decodeTableWord 8 0xFF = none := by decide

/-- V42: a host asks in vain for F_PH, DSTEP and an unassigned code. -/
theorem test_host_codes_refused :
    answerOf (step { State.reset with script := [⟨.host, 0x12, [], 0⟩] }) = some (.refused (.unknownCommand 0x12))
    ∧ answerOf (step { State.reset with script := [⟨.host, 0x20, [], 0⟩] }) = some (.refused (.unknownCommand 0x20))
    ∧ answerOf (step { State.reset with script := [⟨.host, 0x09, [], 0⟩] }) = some (.refused (.unknownCommand 0x09)) := by
  decide

/-- V40: the first command after reset. -/
theorem test_first_step_after_reset :
    answerOf (step (State.reset.withFetchWord 8 0x00)) = some (.ok .done)
    ∧ answerOf (step (State.reset.withFetchWord 8 0x01)) = some (.ok .done)
    ∧ answerOf (step (State.reset.withFetchWord 8 0x02)) = some (.refused (.wrongPhase .descr .empty))
    ∧ answerOf (step (State.reset.withFetchWord 8 0x03)) = some (.refused (.wrongPhase .map .empty))
    ∧ answerOf (step (State.reset.withFetchWord 8 0x06)) = some (.refused (.wrongPhase .rdu8 .empty)) := by decide

/-! ### The operations -/

/-- P5: CLEAR gives the reset state. -/
theorem test_clear :
    nextOf (exec .clear (block .descrambled [0x42])) = some (State.reset.answer (.ok .done)) := by decide

/-- P1, command 1. -/
theorem test_load : frameAfter (exec (.load rawS1) State.reset) = some rawS1 := by decide

/-- V41: 33 bytes against `LEN_MAX = 32`; the previous frame stays. -/
theorem test_load_too_long :
    nextOf (exec (.load (List.replicate 33 7)) (block .descrambled [0x42])) =
      some ((block .descrambled [0x42]).answer (.refused (.frameTooLong 33))) := by decide

/-- S1. -/
theorem test_descr : frameAfter (exec .descr (block .raw rawS1)) = some descrS1 := by decide

/-- V6: an 18-byte frame, as a function. -/
theorem test_descramble :
    descramble [0x44, 0x20, 0x82, 0x3C, 0xFD, 0xE6, 0xF1, 0xC2, 0x6B, 0x30, 0xF9, 0x0E, 0xC7, 0xDD, 0x01, 0xE4, 0x88,
        0x75] =
      [0x22, 0xFF, 0xC7, 0x14, 0x63, 0x09, 0x2E, 0x2D, 0x9E, 0x48, 0xE7, 0x21, 0x50, 0xBC, 0x33, 0xFF, 0x25, 0x11] := by
  decide

/-- V1, the step DSTEP(2). -/
theorem test_dstep :
    frameAfter (exec .dstep { block .raw [0x00, 0xFF, 0xA5, 0x5A] with idx := some 2 }) =
      some [0x00, 0x05, 0xA0, 0x5A] := by decide

/-- R65 requires a live index. -/
theorem test_dstep_without_index : faultOf (exec .dstep (block .raw rawS1)) = some .pairIndexNotLive := by decide

/-- P1, command 9, lenient. -/
theorem test_map_lenient :
    answerOf (exec .map (block .descrambled descrS1)) = some (.ok (.snapshot
      { sensors := ⟨none, none, none, none, none, none, none, none⟩
        aux := ⟨some 245, some 160, none, none⟩
        errors := [⟨.pH, 3⟩, ⟨.EC, 5⟩, ⟨.salt, 5⟩, ⟨.TDS, 7⟩, ⟨.ORP, 9⟩, ⟨.cloro, 11⟩, ⟨.temperature, 13⟩,
          ⟨.battery, 15⟩, ⟨.H_HOLD, 17⟩, ⟨.H_BKLT, 17⟩] })) := by decide

/-- P1, command 9, strict. -/
theorem test_map_strict :
    answerOf (exec .map (blockOf strictConfig .descrambled descrS1)) = some (.fault (.decodeError ⟨.pH, 3⟩)) := by decide

/-- P2: the source's end-to-end scenario as one DECODE. -/
theorem test_decode_end_to_end :
    answerOf (exec (.decode rawP2) State.reset) = some (.ok (.snapshot
      { sensors :=
          { battery := some 100, EC := some 1200, salt := some (mkRat 660 1), TDS := some 800, cloro := some (mkRat 3 1),
            pH := some (mkRat 15 2), ORP := some (mkRat 9 20), temperature := some (mkRat 53 2) }
        aux := ⟨some 1, some 2, some 1, some 1⟩
        errors := [] })) := by decide +kernel

/-- P3, command 1, strict: the failure leaves the frame loaded and descrambled. -/
theorem test_decode_strict_failure :
    answerOf (exec (.decode rawP3) (State.resetOf strictConfig)) = some (.fault (.decodeError ⟨.ORP, 9⟩))
    ∧ frameAfter (exec (.decode rawP3) (State.resetOf strictConfig)) =
        some [0x00, 0x01, 0x02, 0x02, 0xEE, 0x04, 0xB0, 0x03, 0x2A, 0x21] := by decide +kernel

/-- V11, V12. -/
theorem test_rdi16 :
    answerOf (exec (.rdi16 2) (block .raw descrS1)) = some (.ok (.i16 (-24486)))
    ∧ answerOf (exec (.rdi16 3) (block .raw descrS1)) = some (.fault (.outOfRange 3))
    ∧ answerOf (exec (.rdi16 1000000) (block .raw descrS1)) = some (.fault (.outOfRange 1000000)) := by decide

/-- V10. -/
theorem test_rdi16_values :
    answerOf (exec (.rdi16 0) (block .raw [0x80, 0x00])) = some (.ok (.i16 (-32768)))
    ∧ answerOf (exec (.rdi16 0) (block .raw [0x7F, 0xFF])) = some (.ok (.i16 32767))
    ∧ answerOf (exec (.rdi16 0) (block .raw [0x02, 0xEE])) = some (.ok (.i16 750)) := by decide

/-- V12, V13. -/
theorem test_rdu8 :
    answerOf (exec (.rdu8 3) (block .raw descrS1)) = some (.ok (.u8 90))
    ∧ answerOf (exec (.rdu8 4) (block .raw descrS1)) = some (.fault (.outOfRange 4))
    ∧ answerOf (exec (.rdu8 0) State.reset) = some (.refused (.wrongPhase .rdu8 .empty)) := by decide

/-- V32. -/
theorem test_hVer : answerOf (exec .hVer (block .descrambled descrS1)) = some (.ok (.u8 245)) := by decide

/-- V32. -/
theorem test_hProd :
    answerOf (exec .hProd (block .descrambled descrS1)) = some (.ok (.u8 160))
    ∧ answerOf (exec .hProd (block .descrambled [0, 1])) = some (.fault (.decodeError ⟨.H_PROD, 2⟩)) := by decide

/-- V20. -/
theorem test_fPh :
    answerOf (exec .fPh (block .descrambled [0, 0, 0, 0x80, 0x00])) = some (.ok (.rat (mkRat (-8192) 25))) := by decide

/-- V21. -/
theorem test_fEc :
    answerOf (exec .fEc (block .descrambled [0, 0, 0, 0, 0, 0xFF, 0xFB])) = some (.ok (.int (-5))) := by decide

/-- V24. -/
theorem test_fSalt :
    answerOf (exec .fSalt (block .descrambled [0, 0, 0, 0, 0, 0x7F, 0xFF])) = some (.ok (.rat (mkRat 360437 20))) := by
  decide

/-- V22. -/
theorem test_fTds :
    answerOf (exec .fTds (block .descrambled [0, 0, 0, 0, 0, 0, 0, 0x80, 0x00])) = some (.ok (.int (-32768))) := by decide

/-- V23. -/
theorem test_fOrp :
    answerOf (exec .fOrp (block .descrambled [0, 0, 0, 0, 0, 0, 0, 0, 0, 0xFF, 0x38])) =
      some (.ok (.rat (mkRat (-1) 5))) := by decide

/-- V25, S3. -/
theorem test_fCl :
    answerOf (exec .fCl (block .descrambled [0, 0, 0, 0, 0, 0, 0, 0, 0, 0, 0, 0xFF, 0xFB])) =
      some (.ok (.rat (mkRat 0 1)))
    ∧ answerOf (exec .fCl (block .descrambled [0, 0, 0, 0, 0, 0, 0, 0, 0, 0, 0, 0x00, 0x01])) =
      some (.ok (.rat (mkRat 1 10))) := by decide

/-- V26. -/
theorem test_fTemp :
    answerOf (exec .fTemp (block .descrambled [0, 0, 0, 0, 0, 0, 0, 0, 0, 0, 0, 0, 0, 0xFF, 0xF1])) =
      some (.ok (.rat (mkRat (-3) 2))) := by decide

/-- V30: the ties at 3006 and 3030, and a clamp. -/
theorem test_fBatt :
    answerOf (exec .fBatt (batteryBlock Config.default 0x0B 0xBE)) = some (.ok (.int 0))
    ∧ answerOf (exec .fBatt (batteryBlock halfUpConfig 0x0B 0xBE)) = some (.ok (.int 1))
    ∧ answerOf (exec .fBatt (batteryBlock halfAwayConfig 0x0B 0xD6)) = some (.ok (.int 3))
    ∧ answerOf (exec .fBatt (batteryBlock Config.default 0x0B 0xD6)) = some (.ok (.int 2))
    ∧ answerOf (exec .fBatt (batteryBlock Config.default 0x80 0x00)) = some (.ok (.int 0)) := by decide

/-- V31: the inverted pair. -/
theorem test_fBatt_inverted :
    answerOf (exec .fBatt (batteryBlock invertedConfig 0x0B 0xCA)) = some (.ok (.int 98))
    ∧ answerOf (exec .fBatt (batteryBlock invertedConfig 0x13 0x88)) = some (.ok (.int 0))
    ∧ answerOf (exec .fBatt (batteryBlock invertedConfig 0x07 0xD0)) = some (.ok (.int 100)) := by decide

/-- V34. -/
theorem test_hHold :
    holdBits 0xF7 = 15 ∧ holdBits 0x80 = 8 ∧ holdBits 0x0F = 0
    ∧ answerOf (exec .hHold (block .descrambled descrP2)) = some (.ok (.u8 1)) := by decide

/-- V34. -/
theorem test_hBklt :
    backlightBit 0xF7 = 0 ∧ backlightBit 0x08 = 1 ∧ backlightBit 0x0F = 1
    ∧ answerOf (exec .hBklt (block .descrambled descrP2)) = some (.ok (.u8 1)) := by decide

/-- V24, the binary64 view: 3, 1200 and -5. -/
theorem test_f64_salt :
    f64Salt 3 = 0x3FFA666666666667 ∧ f64Salt 100 = 0x404B800000000001 ∧ f64Salt 1200 = F64.nearest (mkRat 660 1) := by
  decide +kernel

/-! ### Witnesses: states and operands that meet the hypotheses of a statement, one theorem per statement -/

theorem witness_ResetLeavesEmptyUnaddressableBlock :
    ∃ s : State, s.cfg = strictConfig ∧ s.idx = none ∧ s.phase = .raw ∧ 0 < s.len :=
  ⟨blockOf strictConfig .raw rawS1, by decide⟩

theorem witness_DegenerateCalibrationBuildsNoBlock :
    (construct 3000 3000 .lenient .halfEven ⟨none, rfl⟩ matches .error .calibrationDegenerate) = true
    ∧ (4200 : I16) ≠ 3000 ∧ (-32768 : I16) ≠ 32767 := by decide

theorem witness_DecodeAndEncodeAreInverse :
    Request.wf ⟨.host, 0x01, [1, 2], 0⟩ = true ∧ Request.wf ⟨.host, 0x06, [], 1000000⟩ = true
    ∧ Request.wf ⟨.host, 0x00, [], 0⟩ = true ∧ Request.wf ⟨.sequencer, 0x10, [], 0⟩ = true
    ∧ Request.wf ⟨.sequencer, 0x1B, [], 0⟩ = true ∧ Request.wf ⟨.sequencer, 0x20, [], 0⟩ = true := by decide

/-- The codes next to the commands, at the end of the range, and two that name an operation. -/
theorem witness_HostCodeOutsideCommandsIsRefused :
    ∀ w ∈ [0x07, 0x10, 0x20, 0xFF], ∃ (s : State) (q : Request),
      q.issuer = .host ∧ q.code = BitVec.ofNat 8 w ∧ q.code.toNat > 6 ∧ s.script = [q] := by
  intro w hw
  refine ⟨{ State.reset with script := [⟨.host, BitVec.ofNat 8 w, [], 0⟩] }, _, rfl, rfl, ?_, rfl⟩
  revert w hw; decide

theorem witness_StepRunsTheDecodedRequest :
    (∃ s : State, s.script = [⟨.host, 0x05, [], 2⟩] ∧ s.phase = .raw)
    ∧ (decodeRequest ⟨.host, 0x05, [], 2⟩ matches .ok (.rdi16 2)) = true
    ∧ (decodeRequest ⟨.sequencer, 0x20, [], 0⟩ matches .ok .dstep) = true ∧ State.reset.script = [] :=
  ⟨⟨{ block .raw rawS1 with script := [⟨.host, 0x05, [], 2⟩] }, rfl, rfl⟩, by decide, by decide, rfl⟩

/-- A live pair index at both ends of its range (also the premise of DstepMovesAndInvertsEveryBit). -/
theorem witness_DstepWritesItsPairOnly :
    ∃ s u : State, (s.idx = some 1 ∧ 1 < s.len) ∧ (u.idx = some 3 ∧ u.len = 4) :=
  ⟨{ block .raw rawS1 with idx := some 1 }, { block .raw rawS1 with idx := some 3 }, by decide⟩

/-- No index, index 0, and the index `LEN`. -/
theorem witness_DstepStopsWithoutLivePair :
    ∃ s u v : State, s.idx = none ∧ (u.idx = some 0 ∧ 0 < u.len) ∧ (v.idx = some 4 ∧ v.len = 4) :=
  ⟨block .raw rawS1, { block .raw rawS1 with idx := some 0 }, { block .raw rawS1 with idx := some 4 }, by decide⟩

theorem witness_PassVisitsPairsInDescendingOrder : pairIndices 4 = [3, 2, 1] ∧ pairIndices 1 = [] ∧ 2 < 4 - 1 := by
  decide

/-- RAW with cells, and the two phases that refuse DESCR. -/
theorem witness_DescrInPlaceIsDescramble :
    (block .raw rawS1).phase = .raw ∧ (block .raw rawS1).len = 4 ∧ State.reset.phase ≠ .raw
    ∧ (block .descrambled descrS1).phase ≠ .raw := by decide

/-- RAW at lengths 0, 1 and 2. -/
theorem witness_ShortFramesPassUnchanged :
    ((block .raw []).phase = .raw ∧ (block .raw []).len < 2)
    ∧ ((block .raw [0x42]).phase = .raw ∧ (block .raw [0x42]).len < 2)
    ∧ ((block .raw [0x12, 0x34]).phase = .raw ∧ (block .raw [0x12, 0x34]).len = 2) := by decide

/-- Lengths 1, 2 and 3, and the interior byte of a frame of four. -/
theorem witness_DescrambleClosedForm :
    [(0x42 : Byte)].length < 2 ∧ [(0x12 : Byte), 0x34] = [0x12, 0x34] ∧ 3 ≤ [(0xA5 : Byte), 0x5A, 0xC3].length
    ∧ 3 ≤ rawS1.length ∧ 1 + 3 ≤ rawS1.length := by decide

theorem witness_DescrambleIsLengthPreservingBijection : descramble rawS1 = descrS1 := by decide

/-- A cut at 3, and V6's cut at 10, each with its last kept position. -/
theorem witness_TruncationChangesTheLastTwoBytesOnly :
    (3 ≤ rawS1.length ∧ 0 + 3 ≤ 3) ∧ (3 ≤ 10 ∧ 10 ≤ rawP2.length ∧ 7 + 3 ≤ 10) := by decide

theorem witness_DescrambleIsNoInvolution :
    ∃ s t : State, exec .descr s = .next t ∧ t.response = some (.ok .done) :=
  ⟨block .raw rawS1, _, rfl, rfl⟩

/-- A frame of four bytes: the last offset that reads and the first that does not, in both phases that admit the read. -/
theorem witness_Rdi16ReadsSignedBigEndian :
    (block .raw rawS1).phase ≠ .empty ∧ (block .descrambled descrS1).phase ≠ .empty
    ∧ 2 + 1 < (block .raw rawS1).len ∧ (block .raw rawS1).len ≤ 3 + 1 := by decide

theorem witness_Rdu8ReadsUnsignedByte :
    (block .raw rawS1).phase ≠ .empty ∧ (block .descrambled descrS1).phase ≠ .empty
    ∧ 3 < (block .raw rawS1).len ∧ (block .raw rawS1).len ≤ 4 := by decide

theorem witness_OverlappingReadsSeeTheSameCells :
    (block .raw rawS1).phase ≠ .empty ∧ 1 ≤ 2 ∧ 2 + 1 < (block .raw rawS1).len := by decide

/-- Every field is reached by P2's block, and missed by a frame one byte too short for it (R104's thresholds). -/
theorem witness_fields_present_and_missing :
    (block .descrambled descrP2).len = 18
    ∧ ∀ f ∈ fieldRows, f.offset + f.width ≤ (block .descrambled descrP2).len
        ∧ (block .descrambled (descrP2.take (f.offset + f.width - 1))).len < f.offset + f.width := by decide

/-- The raw value of cloro on both sides of zero and at zero. -/
theorem witness_ChlorineIsFlooredAtZero :
    12 < (block .descrambled descrP4).len ∧ (block .descrambled descrP4).raw 11 < 0
    ∧ 0 ≤ (block .descrambled descrP2).raw 11 ∧ (block .descrambled (List.replicate 13 0)).raw 11 = 0 := by decide

/-- V30's tie at raw 3006 under each rounding: the quotient is exactly one half. -/
theorem witness_BatteryRoundsThenClamps :
    16 < (batteryBlock Config.default 0x0B 0xBE).len ∧ (batteryBlock Config.default 0x0B 0xBE).raw 15 = 3006
    ∧ battQuotient Config.default 3006 = mkRat 1 2 ∧ Config.default.roundTie = .halfEven
    ∧ halfUpConfig.roundTie = .halfUp ∧ halfAwayConfig.roundTie = .halfAway
    ∧ (block .descrambled (List.replicate 16 0)).len ≤ 16 := by decide

/-- An ordered and an inverted pair, with raw values below, at and beyond both ends (V30, V31). -/
theorem witness_BatteryClampsOutsideCalibration :
    Config.default.batt0.toInt < Config.default.batt100.toInt
    ∧ invertedConfig.batt100.toInt < invertedConfig.batt0.toInt
    ∧ (batteryBlock Config.default 0x0B 0xB7).raw 15 < Config.default.batt0.toInt
    ∧ (batteryBlock Config.default 0x0B 0xB8).raw 15 = Config.default.batt0.toInt
    ∧ (batteryBlock Config.default 0x10 0x68).raw 15 = Config.default.batt100.toInt
    ∧ invertedConfig.batt0.toInt < (batteryBlock invertedConfig 0x10 0x69).raw 15
    ∧ (batteryBlock invertedConfig 0x0B 0xB8).raw 15 = invertedConfig.batt100.toInt := by decide

theorem witness_HalfUpAndHalfAwayAgreeOnBattery :
    halfUpConfig.batt0 = halfAwayConfig.batt0 ∧ halfUpConfig.batt100 = halfAwayConfig.batt100
    ∧ halfUpConfig.roundTie = .halfUp ∧ halfAwayConfig.roundTie = .halfAway := by decide

/-- Two blocks that differ in an unassigned byte, in the low bits of the status byte and in phase, and agree on the bytes
of the battery field and on the upper five bits of the status byte. -/
theorem witness_FieldDependsOnItsBytesOnly :
    let s := block .descrambled descrP2
    let t := block .raw (0x55 :: (descrP2.drop 1).dropLast ++ [0x1F])
    t.len = s.len ∧ t.cfg = s.cfg ∧ t.mem ≠ s.mem
    ∧ (∀ k < 2, t.mem.read (15 + k) = s.mem.read (15 + k))
    ∧ t.mem.read 17 &&& 0xF8 = s.mem.read 17 &&& 0xF8 ∧ t.mem.read 17 ≠ s.mem.read 17 := by decide

theorem witness_LenientMapCollectsTheFields :
    (block .descrambled descrS1).phase = .descrambled ∧ (block .descrambled descrS1).cfg.mode = .lenient := by decide

/-- Strict blocks of each length from 0 to 18. -/
theorem witness_StrictMapNamesTheFirstMissingField :
    ∀ n < 19, (blockOf strictConfig .descrambled (descrP2.take n)).phase = .descrambled
      ∧ (blockOf strictConfig .descrambled (descrP2.take n)).cfg.mode = .strict
      ∧ (blockOf strictConfig .descrambled (descrP2.take n)).len = n := by decide

/-- P4's frame with its unassigned positions changed. -/
theorem witness_MapIgnoresUnassignedPositions :
    let s := block .descrambled descrP4
    let t := block .descrambled (0x00 :: (descrP4.drop 1).take 16 ++ [0xF0, 0x12, 0x34])
    s.phase = .descrambled ∧ t.phase = .descrambled ∧ t.cfg = s.cfg ∧ t.len = s.len ∧ t.mem ≠ s.mem
    ∧ (∀ a < 17, 1 ≤ a → t.mem.read a = s.mem.read a) ∧ t.mem.read 17 &&& 0xF8 = s.mem.read 17 &&& 0xF8 := by decide

/-- P2's block. -/
theorem witness_EndToEndScenarioMapsAsTheSourceSays :
    let s := block .descrambled descrP2
    s.phase = .descrambled ∧ 18 ≤ s.len ∧ s.raw 3 = 750 ∧ s.raw 5 = 1200 ∧ s.raw 7 = 800 ∧ s.raw 11 = 30
    ∧ s.raw 9 = 450 ∧ s.raw 13 = 265 ∧ s.raw 15 = s.cfg.batt100.toInt := by decide

/-- The frame lengths at the limit, one past it, and with no limit (also for the statements on DECODE and on the length). -/
theorem witness_LoadStoresTheFrame :
    Config.default.lenMax.admits 32 = true ∧ Config.default.lenMax.admits 33 = false
    ∧ unboundedConfig.lenMax.admits 1000000 = true ∧ Config.default.lenMax.admits 0 = true := by decide

theorem witness_ClearDropsTheFrame : (block .descrambled descrS1).idx = none ∧ (block .descrambled descrS1).len = 4 := by
  decide

/-- Each command in a phase that admits it, and the refusing phases of R13's table. -/
theorem witness_PhaseTableGovernsEveryCommand :
    hostCommandOf .descr = some .descr ∧ Instr.wf Config.default .descr = true ∧ (block .raw rawS1).phase = .raw
    ∧ hostCommandOf .map = some .map ∧ (block .descrambled descrS1).phase = .descrambled
    ∧ hostCommandOf (.rdi16 0) = some .rdi16 ∧ State.reset.phase = .empty
    ∧ hostCommandOf (.load (List.replicate 32 0)) = some .load
    ∧ Instr.wf Config.default (.load (List.replicate 32 0)) = true := by decide

/-- An unknown code, a wrong phase and a frame too long, each answered by a refusal. -/
theorem witness_RefusalChangesNothing :
    (∃ s t : State, s.script = [⟨.host, 0x09, [], 0⟩] ∧ step s = .next t
        ∧ t.response = some (.refused (.unknownCommand 0x09)))
    ∧ (∃ s t : State, s.script = [⟨.host, 0x03, [], 0⟩] ∧ step s = .next t
        ∧ t.response = some (.refused (.wrongPhase .map .raw)))
    ∧ ∃ s t : State, s.script = [⟨.host, 0x01, List.replicate 33 0, 0⟩] ∧ step s = .next t
        ∧ t.response = some (.refused (.frameTooLong 33)) :=
  ⟨⟨{ block .raw rawS1 with script := [⟨.host, 0x09, [], 0⟩] }, _, rfl, rfl, rfl⟩,
    ⟨{ block .raw rawS1 with script := [⟨.host, 0x03, [], 0⟩] }, _, rfl, rfl, rfl⟩,
    ⟨{ block .raw rawS1 with script := [⟨.host, 0x01, List.replicate 33 0, 0⟩] }, _, rfl, rfl, rfl⟩⟩

/-- A read past the end, and a strict DECODE of a frame too short for its first field. -/
theorem witness_ErrorsArePreciseButForDecode :
    (∃ s t : State, exec (.rdu8 4) s = .next t ∧ t.response = some (.fault (.outOfRange 4)))
    ∧ ∃ s t : State, exec (.decode [0x42]) s = .next t
        ∧ t.response = some (.fault (.decodeError ⟨.H_VER, 1⟩)) :=
  ⟨⟨block .raw rawS1, _, rfl, rfl⟩, ⟨State.resetOf strictConfig, _, rfl, rfl⟩⟩

theorem witness_EveryHostRequestIsAnswered :
    ∃ (s : State) (q : Request), q.issuer = .host ∧ s.script = [q] :=
  ⟨{ block .raw rawS1 with script := [⟨.host, 0x02, [], 0⟩] }, _, rfl, rfl⟩

theorem witness_ReadsLeaveTheBlockAndRepeat : (⟨.fBatt, .battery, 15, 2⟩ : FieldRow) ∈ fieldRows := by decide

theorem witness_LengthIsTheLoadedFrames :
    ∃ s t : State, exec (.load [0x42]) s = .next t ∧ s.len = 4 ∧ t.len = 1 :=
  ⟨block .raw rawS1, _, rfl, rfl, rfl⟩

theorem witness_ConfigurationIsNeverWritten : ∃ s t : State, step s = .next t ∧ t.len = 1 :=
  ⟨{ State.reset with script := [⟨.host, 0x01, [0x42], 0⟩] }, _, rfl, rfl⟩

/-- Two blocks with different pasts, one configuration, and a frame at the limit. -/
theorem witness_DecodeForgetsTheEarlierFrame :
    (block .descrambled descrP2).cfg = State.reset.cfg ∧ (block .descrambled descrP2).mem ≠ State.reset.mem
    ∧ State.reset.cfg.lenMax.admits (List.replicate 32 (0 : Byte)).length = true := by decide

/-- A loaded block meets the invariant, and a step of it answers a next state. -/
theorem witness_EveryStepKeepsTheInvariant :
    ∃ s t : State, s.Inv ∧ s.phase = .raw ∧ s.len = 4 ∧ step s = .next t ∧ t.phase = .descrambled :=
  ⟨{ block .raw rawS1 with script := [⟨.host, 0x02, [], 0⟩] }, _,
    ⟨by decide, by decide, by decide, by decide, by decide⟩, rfl, rfl, rfl, rfl⟩

/-- Each of the three things a block can hold, with a step. -/
theorem witness_EveryStepTracksTheLoadedFrame :
    State.Holds State.reset none
    ∧ State.Holds (block .descrambled descrS1) (some rawS1)
    ∧ ∃ s t : State, s.Inv ∧ s.Holds (some rawS1) ∧ step s = .next t ∧ t.phase = .descrambled :=
  ⟨⟨rfl, rfl⟩, .inr ⟨rfl, rfl, by decide⟩,
    ⟨{ block .raw rawS1 with script := [⟨.host, 0x02, [], 0⟩] }, _,
      ⟨by decide, by decide, by decide, by decide, by decide⟩, .inl ⟨rfl, rfl, by decide⟩, rfl, rfl⟩⟩

theorem witness_LoadDescrMapServesAsDecode : State.reset.cfg.lenMax.admits rawP2.length = true := by decide

/-- Two instances, each with a command to perform. -/
theorem witness_InstancesDoNotInterfere :
    ∃ (bs b1 b2 : List State), bs.length = 2 ∧ stepInstance 0 bs = .next b1 ∧ stepInstance 1 b1 = .next b2
      ∧ b2.map State.len = [1, 2] :=
  ⟨[{ State.reset with script := [⟨.host, 0x01, [0x42], 0⟩] },
      { State.resetOf strictConfig with script := [⟨.host, 0x01, [0x12, 0x34], 0⟩] }],
    _, _, rfl, rfl, rfl, rfl⟩

/-- The raw values at both ends, the three divisors, and a finite pattern. -/
theorem witness_BinaryViewOfDivisionIsNearest :
    (-32768 : Int) ≤ -32768 ∧ (32767 : Int) ≤ 32767 ∧ F64.exponent 0x401E000000000000 < 2047 := by decide

/-- The three divisors at both ends of the raw range, and at zero. -/
theorem witness_BinaryViewIsZeroOrNormal :
    ∀ d ∈ [10, 100, 1000], (d = 10 ∨ d = 100 ∨ d = 1000)
      ∧ ∀ raw ∈ [(-32768 : Int), 0, 32767], -32768 ≤ raw ∧ raw ≤ 32767 := by decide

end Sys2Proof.Tests
end

section
/-! PROOFS. The family `10_state.md`: what the block holds between commands. First the laws (the buffer as a byte
sequence, the invariant, the history), then the theorems that settle the statements. -/

namespace Sys2Proof.Machine

/-! ### The block, apart from the host's side -/

theorem State.sameBlock_answer (r : Response) (s : State) : s.sameBlock (s.answer r) := ⟨rfl, rfl, rfl, rfl, rfl⟩

theorem State.sameBlock_withScript (qs : List Request) (s : State) : s.sameBlock { s with script := qs } :=
  ⟨rfl, rfl, rfl, rfl, rfl⟩

/-- MAP's answer is a function of the block (R107). -/
theorem mapResponse_congr {s t : State} (h : s.sameBlock t) : mapResponse t = mapResponse s := by
  cases s
  cases t
  obtain ⟨rfl, rfl, rfl, rfl, rfl⟩ := h
  rfl

/-! ### LOAD and DECODE of a frame that fits -/

theorem exec_load_of_fits {r : List Byte} {s : State} (h : s.cfg.lenMax.admits r.length = true) :
    exec (.load r) s = .next ((s.loadFrame r).answer (.ok .done)) := by
  rw [exec, execLoad_eq, if_pos h]

theorem exec_decode_of_fits {r : List Byte} {s : State} (h : s.cfg.lenMax.admits r.length = true) :
    exec (.decode r) s =
      .next ((s.loadFrame r).descrambleBuffer.answer (mapResponse (s.loadFrame r).descrambleBuffer)) := by
  rw [exec, execDecode_eq, if_pos h]

/-! ### The buffer as a byte sequence -/

/-- A pair step on the buffer is the pair step on the frame in it (R65, R68). -/
theorem frame_descrRound {s : State} {i : Nat} (h : 1 ≤ i ∧ i < s.len) :
    (descrRound s i).frame = pairStepOn s.frame i := by
  have hlen : (descrRound s i).len = s.len := rfl
  refine List.ext_getElem (by simp [hlen]) fun a ha _ => ?_
  rw [State.getElem_frame, descrRound_mem, read_pairStep]
  simp only [pairStepOn, List.getElem_set, State.getElem_frame]
  rw [State.getD_frame s h.2, State.getD_frame s (by omega)]
  simp only [eq_comm]

/-- The pair steps of a pass, in place and on the frame (R68). -/
theorem frame_foldl_descrRound {is : List Nat} {s : State} (h : ∀ i ∈ is, 1 ≤ i ∧ i < s.len) :
    (is.foldl descrRound s).frame = is.foldl pairStepOn s.frame := by
  induction is generalizing s with
  | nil => rfl
  | cons i is ih =>
    have ht : ∀ j ∈ is, 1 ≤ j ∧ j < (descrRound s i).len := fun j hj => h j (by simp [hj])
    rw [List.foldl_cons, ih ht, frame_descrRound (h i (by simp)), List.foldl_cons]

/-- The in-place pass leaves in the buffer what the pure function gives (R68). -/
theorem State.frame_descrambleBuffer (s : State) : s.descrambleBuffer.frame = descramble s.frame :=
  calc s.descrambleBuffer.frame = ((pairIndices s.len).foldl descrRound s).frame := rfl
    _ = (pairIndices s.len).foldl pairStepOn s.frame := frame_foldl_descrRound fun _ => pairIndices_mem
    _ = descramble s.frame := by rw [descramble, s.length_frame]

/-- A loaded frame is the frame in the buffer (R120). -/
theorem State.frame_loadFrame (r : List Byte) (s : State) : (s.loadFrame r).frame = r := by
  refine List.ext_getElem (by simp) fun a _ ha => ?_
  rw [State.getElem_frame, State.loadFrame_mem, Memory.read_store_lt _ _ ha]

/-! ### The invariant -/

theorem LenMax.admits_zero (l : LenMax) : l.admits 0 = true := by
  unfold LenMax.admits
  split <;> simp

theorem State.inv_resetOf (c : Config) : (State.resetOf c).Inv where
  memWf := Memory.wf_nil
  cellsBelow := nofun
  lenFits := LenMax.admits_zero c.lenMax
  emptyLen _ := rfl
  idxDead := rfl

/-- The invariant speaks of the block only. -/
theorem State.Inv.of_sameBlock {s t : State} (h : s.Inv) (e : s.sameBlock t) : t.Inv := by
  cases s
  cases t
  obtain ⟨rfl, rfl, rfl, rfl, rfl⟩ := e
  exact ⟨h.memWf, h.cellsBelow, h.lenFits, h.emptyLen, h.idxDead⟩

theorem State.Inv.answer {s : State} (h : s.Inv) (r : Response) : (s.answer r).Inv :=
  h.of_sameBlock (s.sameBlock_answer r)

theorem State.Inv.withScript {s : State} (h : s.Inv) (qs : List Request) : State.Inv { s with script := qs } :=
  h.of_sameBlock (s.sameBlock_withScript qs)

theorem State.Inv.dropFrame {s : State} (h : s.Inv) : s.dropFrame.Inv where
  memWf := Memory.wf_nil
  cellsBelow := nofun
  lenFits := LenMax.admits_zero s.cfg.lenMax
  emptyLen _ := rfl
  idxDead := h.idxDead

theorem State.Inv.loadFrame {s : State} (h : s.Inv) {r : List Byte} (hr : s.cfg.lenMax.admits r.length = true) :
    (s.loadFrame r).Inv where
  memWf := Memory.wf_store Memory.wf_nil 0 r
  cellsBelow c hc := by
    obtain ⟨-, hlt⟩ | hnil := Memory.mem_store hc
    · simpa using hlt
    · cases hnil
  lenFits := hr
  emptyLen := nofun
  idxDead := h.idxDead

theorem State.Inv.descrambleBuffer {s : State} (h : s.Inv) : s.descrambleBuffer.Inv where
  memWf := by
    rw [State.descrambleBuffer_mem]
    exact wf_foldl_pairStep _ h.memWf
  cellsBelow c hc := by
    rw [State.descrambleBuffer_mem] at hc
    rw [State.descrambleBuffer_len]
    exact (mem_foldl_pairStep (fun _ hi => (pairIndices_mem hi).2) hc).elim id (h.cellsBelow c)
  lenFits := by simpa using h.lenFits
  emptyLen := nofun
  idxDead := rfl

/-- No operation breaks the invariant; DSTEP does not run, the pair index being dead. -/
theorem State.Inv.exec {s t : State} {i : Instr} (h : s.Inv) (he : exec i s = .next t) : t.Inv := by
  obtain ⟨r, rfl, -⟩ | ⟨-, rfl⟩ | ⟨r, -, hr, rfl⟩ | ⟨-, -, rfl⟩ | ⟨r, -, hr, rfl⟩ | ⟨j, -, hj, -⟩ := exec_next_cases he
  · exact h.answer r
  · exact h.dropFrame.answer _
  · exact (h.loadFrame hr).answer _
  · exact h.descrambleBuffer.answer _
  · exact (h.loadFrame hr).descrambleBuffer.answer _
  · simp [h.idxDead] at hj

theorem State.Inv.step {s t : State} (h : s.Inv) (hs : step s = .next t) : t.Inv := by
  obtain ⟨-, rfl⟩ | ⟨q, rest, -, ⟨e, -, rfl⟩ | ⟨i, -, he⟩⟩ := step_next_cases hs
  · exact h
  · exact (h.withScript rest).answer _
  · exact (h.withScript rest).exec he

/-! ### The frame most recently loaded -/

/-- What a block holds speaks of the block only. -/
theorem State.Holds.of_sameBlock {s t : State} {l : Option (List Byte)} (h : s.Holds l) (e : s.sameBlock t) :
    t.Holds l := by
  cases s
  cases t
  obtain ⟨rfl, rfl, rfl, rfl, rfl⟩ := e
  exact h

theorem State.Holds.answer {s : State} {l : Option (List Byte)} (h : s.Holds l) (r : Response) :
    (s.answer r).Holds l :=
  h.of_sameBlock (s.sameBlock_answer r)

theorem State.Holds.withScript {s : State} {l : Option (List Byte)} (h : s.Holds l) (qs : List Request) :
    State.Holds { s with script := qs } l :=
  h.of_sameBlock (s.sameBlock_withScript qs)

theorem State.resetOf_holds (c : Config) : (State.resetOf c).Holds none := ⟨rfl, rfl⟩

theorem State.dropFrame_holds (s : State) : s.dropFrame.Holds none := ⟨rfl, rfl⟩

theorem State.loadFrame_holds (r : List Byte) (s : State) : (s.loadFrame r).Holds (some r) :=
  .inl ⟨rfl, rfl, s.frame_loadFrame r⟩

/-- A RAW block holds, after the pass, the same frame descrambled (R68). -/
theorem State.Holds.descrambleBuffer {s : State} {l : Option (List Byte)} (h : s.Holds l) (hp : s.phase = .raw) :
    s.descrambleBuffer.Holds l := by
  cases l with
  | none =>
    obtain ⟨he, -⟩ := h
    simp [hp] at he
  | some r =>
    obtain ⟨-, hlen, hframe⟩ | ⟨hd, -⟩ := h
    · exact .inr ⟨rfl, by simpa using hlen, by rw [s.frame_descrambleBuffer, hframe]⟩
    · simp [hp] at hd

section LoadedAfter
variable {c : Config} {q : Request} {l : Option (List Byte)}

theorem loadedAfter_of_error {e : Reject} (h : decodeRequest q = .error e) : loadedAfter c q l = l := by
  simp [loadedAfter, h]

theorem loadedAfter_clear (h : decodeRequest q = .ok .clear) : loadedAfter c q l = none := by
  simp [loadedAfter, h]

theorem loadedAfter_load {r : List Byte} (h : decodeRequest q = .ok (.load r))
    (hr : c.lenMax.admits r.length = true) : loadedAfter c q l = some r := by
  simp [loadedAfter, h, hr]

theorem loadedAfter_decode {r : List Byte} (h : decodeRequest q = .ok (.decode r))
    (hr : c.lenMax.admits r.length = true) : loadedAfter c q l = some r := by
  simp [loadedAfter, h, hr]

/-- An operation other than CLEAR that carries in no frame that fits leaves the history as it was. -/
theorem loadedAfter_of_not_loading {i : Instr} (h : decodeRequest q = .ok i) (hc : i ≠ .clear)
    (hr : ∀ r, i = .load r ∨ i = .decode r → c.lenMax.admits r.length = false) : loadedAfter c q l = l := by
  cases i with
  | clear => exact absurd rfl hc
  | load r => simp [loadedAfter, h, hr r (.inl rfl)]
  | decode r => simp [loadedAfter, h, hr r (.inr rfl)]
  | _ => simp [loadedAfter, h]

end LoadedAfter

/-- One operation, asked for by a request, moves the history as `loadedAfter` says (R24). -/
theorem State.Holds.exec {s t : State} {i : Instr} {q : Request} {l : Option (List Byte)} (hi : s.Inv)
    (h : s.Holds l) (hq : decodeRequest q = .ok i) (he : exec i s = .next t) : t.Holds (loadedAfter s.cfg q l) := by
  obtain ⟨r, rfl, hc, -, -, hr⟩ | ⟨rfl, rfl⟩ | ⟨r, rfl, hr, rfl⟩ | ⟨rfl, hp, rfl⟩ | ⟨r, rfl, hr, rfl⟩ | ⟨j, -, hj, -⟩ :=
    exec_next_cases he
  · rw [loadedAfter_of_not_loading hq hc hr]
    exact h.answer r
  · rw [loadedAfter_clear hq]
    exact s.dropFrame_holds.answer _
  · rw [loadedAfter_load hq hr]
    exact (s.loadFrame_holds r).answer _
  · rw [loadedAfter_of_not_loading hq nofun nofun]
    exact (h.descrambleBuffer hp).answer _
  · rw [loadedAfter_decode hq hr]
    exact ((s.loadFrame_holds r).descrambleBuffer rfl).answer _
  · simp [hi.idxDead] at hj

/-- A step that finds the request `q` moves the history as `loadedAfter` says (R24). -/
theorem State.Holds.step {s t : State} {q : Request} {rest : List Request} {l : Option (List Byte)} (hi : s.Inv)
    (h : s.Holds l) (hq : s.script = q :: rest) (hs : step s = .next t) : t.Holds (loadedAfter s.cfg q l) := by
  obtain ⟨hnil, -⟩ | ⟨q', rest', hq', hcases⟩ := step_next_cases hs
  · simp [hnil] at hq
  · obtain ⟨rfl, rfl⟩ : q = q' ∧ rest = rest' := by simpa [hq] using hq'
    obtain ⟨e, he, rfl⟩ | ⟨i, hok, he⟩ := hcases
    · rw [loadedAfter_of_error he]
      exact (h.withScript rest).answer _
    · exact State.Holds.exec (s := { s with script := rest }) (hi.withScript rest) (h.withScript rest) hok he

/-! ### The configuration, and a command script -/

theorem exec_cfg {s t : State} {i : Instr} (h : exec i s = .next t) : t.cfg = s.cfg := by
  obtain ⟨r, rfl, -⟩ | ⟨-, rfl⟩ | ⟨r, -, -, rfl⟩ | ⟨-, -, rfl⟩ | ⟨r, -, -, rfl⟩ | ⟨j, -, -, -, -, rfl⟩ :=
    exec_next_cases h <;> simp

theorem step_cfg {s t : State} (h : step s = .next t) : t.cfg = s.cfg := by
  obtain ⟨-, rfl⟩ | ⟨q, rest, -, ⟨e, -, rfl⟩ | ⟨i, -, he⟩⟩ := step_next_cases h
  · rfl
  · rfl
  · exact exec_cfg (s := { s with script := rest }) he

/-- Every operation but DSTEP answers, in every state (R126). -/
theorem exec_next_of_ne_dstep {i : Instr} (s : State) (h : i ≠ .dstep) : ∃ t, exec i s = .next t := by
  by_cases hr : i ≠ .clear ∧ i ≠ .descr ∧ i ≠ .dstep ∧ (∀ r, i ≠ .load r) ∧ ∀ r, i ≠ .decode r
  · obtain ⟨r, e⟩ := exec_reads s hr
    exact ⟨_, e⟩
  · cases i with
    | clear => exact ⟨_, execClear_eq s⟩
    | load r => simp only [exec, execLoad_eq]; split <;> exact ⟨_, rfl⟩
    | descr => simp only [exec, execDescr_eq]; split <;> exact ⟨_, rfl⟩
    | decode r => simp only [exec, execDecode_eq]; split <;> exact ⟨_, rfl⟩
    | dstep => exact absurd rfl h
    | _ => simp at hr

/-- Serving a request is one step that answers, or the request names DSTEP and the block stays as it was. -/
theorem serve_cases (s : State) (q : Request) :
    step { s with script := [q] } = .next (serve s q) ∨ (decodeRequest q = .ok .dstep ∧ serve s q = s) := by
  by_cases hd : decodeRequest q = .ok .dstep
  · cases hs : step { s with script := [q] } with
    | next t => exact .inl (by rw [serve, hs])
    | fault f => exact .inr ⟨hd, by rw [serve, hs]⟩
    | refused r => exact .inr ⟨hd, by rw [serve, hs]⟩
  · left
    obtain ⟨t, hs⟩ : ∃ t, step { s with script := [q] } = .next t := by
      cases hq : decodeRequest q with
      | error e =>
        simp only [step, hq, refuseUnknown_eq hq]
        exact ⟨_, rfl⟩
      | ok i =>
        simp only [step, hq]
        exact exec_next_of_ne_dstep _ fun e => hd (by rw [hq, e])
    rw [serve, hs]

theorem serve_cfg (s : State) (q : Request) : (serve s q).cfg = s.cfg := by
  obtain hs | ⟨-, hs⟩ := serve_cases s q
  · exact step_cfg (s := { s with script := [q] }) hs
  · rw [hs]

theorem State.Inv.serve {s : State} (h : s.Inv) (q : Request) : (serve s q).Inv := by
  obtain hs | ⟨-, hs⟩ := serve_cases s q
  · exact (h.withScript [q]).step hs
  · rwa [hs]

theorem State.Holds.serve {s : State} {l : Option (List Byte)} (hi : s.Inv) (h : s.Holds l) (q : Request) :
    (serve s q).Holds (loadedAfter s.cfg q l) := by
  obtain hs | ⟨hq, hs⟩ := serve_cases s q
  · exact State.Holds.step (s := { s with script := [q] }) (hi.withScript [q]) (h.withScript [q]) rfl hs
  · rw [hs, loadedAfter_of_not_loading hq nofun nofun]
    exact h

/-- A command script keeps the invariant and moves the history request by request (R24, R126). -/
theorem afterScript_inv_holds {s : State} {l : Option (List Byte)} (hi : s.Inv) (h : s.Holds l) (qs : List Request) :
    (afterScript s qs).Inv ∧ (afterScript s qs).Holds (qs.foldl (fun l q => loadedAfter s.cfg q l) l) := by
  induction qs generalizing s l with
  | nil => exact ⟨hi, h⟩
  | cons q qs ih =>
    have htail := ih (hi.serve q) (State.Holds.serve hi h q)
    rwa [serve_cfg] at htail

/-! ### The phase table -/

/-- R13's middle column, as the statement of the table spells it. -/
theorem admits_iff {c : HostCommand} {p : Phase} :
    admits c p = true ↔
      (c = .descr → p = .raw) ∧ (c = .map → p = .descrambled) ∧ (c = .rdi16 ∨ c = .rdu8 → p ≠ .empty) := by
  cases c with
  | descr => simp [admits_descr]
  | map => simp [admits_map]
  | rdi16 => simp [admits_rdi16]
  | rdu8 => simp [admits_rdu8]
  | _ => simp

theorem mapResponse_ne_refused (s : State) (x : CommandRefusal) : mapResponse s ≠ .refused x := by
  unfold mapResponse
  split <;> nofun

/-- A read command answers with ok or a fault. -/
theorem answerRead_ne_refused {α : Type} (result : α → Result) (v : Except Nat α) (s : State) :
    ∃ r, answerRead result v s = .next (s.answer r) ∧ ∀ x, r ≠ .refused x := by
  cases v with
  | ok v => exact ⟨_, rfl, nofun⟩
  | error o => exact ⟨_, rfl, nofun⟩

/-- A command in a phase of its row, its frame within `LEN_MAX`, is performed and leaves the phase of its row (R13). -/
theorem exec_of_admitted {s : State} {i : Instr} {c : HostCommand} (hc : hostCommandOf i = some c)
    (hw : i.wf s.cfg = true) (ha : admits c s.phase = true) :
    ∃ t r, exec i s = .next t ∧ t.response = some r ∧ t.phase = phaseAfter c s.phase ∧ ∀ x, r ≠ .refused x := by
  cases i with
  | clear => cases hc; exact ⟨_, _, execClear_eq s, rfl, rfl, nofun⟩
  | load r => cases hc; exact ⟨_, _, exec_load_of_fits hw, rfl, rfl, nofun⟩
  | descr =>
    cases hc
    rw [exec, execDescr, whenAdmitted_pos ha]
    exact ⟨_, _, rfl, rfl, rfl, nofun⟩
  | map =>
    cases hc
    rw [exec, execMap, whenAdmitted_pos ha]
    exact ⟨_, _, rfl, rfl, admits_map.1 ha, mapResponse_ne_refused s⟩
  | decode r => cases hc; exact ⟨_, _, exec_decode_of_fits hw, rfl, rfl, mapResponse_ne_refused _⟩
  | rdi16 o =>
    cases hc
    obtain ⟨r, e, hr⟩ := answerRead_ne_refused .i16 (readI16 o s) s
    rw [exec, execRdi16, whenAdmitted_pos ha, e]
    exact ⟨_, r, rfl, rfl, rfl, hr⟩
  | rdu8 o =>
    cases hc
    obtain ⟨r, e, hr⟩ := answerRead_ne_refused .u8 (readU8 o s) s
    rw [exec, execRdu8, whenAdmitted_pos ha, e]
    exact ⟨_, r, rfl, rfl, rfl, hr⟩
  | _ => cases hc

/-- A command in a phase outside its row is refused, and no state changes (R13, R141). -/
theorem exec_of_not_admitted {s : State} {i : Instr} {c : HostCommand} (hc : hostCommandOf i = some c)
    (ha : admits c s.phase = false) : exec i s = .next (s.answer (.refused (.wrongPhase c s.phase))) := by
  cases i with
  | descr => cases hc; rw [exec, execDescr, whenAdmitted_neg ha]
  | map => cases hc; rw [exec, execMap, whenAdmitted_neg ha]
  | rdi16 o => cases hc; rw [exec, execRdi16, whenAdmitted_neg ha]
  | rdu8 o => cases hc; rw [exec, execRdu8, whenAdmitted_neg ha]
  | clear | load | decode => cases hc; cases ha
  | _ => cases hc

/-! ### The statements -/

/-- Settles O51: `State.Inv.step`, from the inversion lemmas of a step and of an operation. -/
theorem everyStepKeepsTheInvariant : Obligations.EveryStepKeepsTheInvariant := fun _ _ hi hs => hi.step hs

/-- Settles O52: `State.Holds.step`, whose one real case is the pass, which in place is `descramble`. -/
theorem everyStepTracksTheLoadedFrame : Obligations.EveryStepTracksTheLoadedFrame := by
  intro s t l hi h hs
  cases hq : s.script with
  | nil =>
    obtain ⟨-, rfl⟩ | ⟨q, rest, hq', -⟩ := step_next_cases hs
    · exact h
    · simp [hq] at hq'
  | cons q rest => exact h.step hi hq hs

/-- Settles O12, by the recursion of `pairIndices`. -/
theorem passVisitsPairsInDescendingOrder : Obligations.PassVisitsPairsInDescendingOrder := by
  intro n
  induction n using pairIndices.induct with
  | case1 => exact ⟨rfl, nofun⟩
  | case2 => exact ⟨rfl, nofun⟩
  | case3 n ih =>
    obtain ⟨hlen, hget⟩ := ih
    refine ⟨by simp [pairIndices, hlen], fun k hk => ?_⟩
    cases k with
    | zero => rfl
    | succ k =>
      rw [pairIndices, List.getElem?_cons_succ, hget k (by omega)]
      congr 1
      omega

/-- Settles O42: R13's table is `admits`, and a command's phase check asks it first. -/
theorem phaseTableGovernsEveryCommand : Obligations.PhaseTableGovernsEveryCommand := by
  intro s i c hc hw
  refine ⟨fun hd hm hr => exec_of_admitted hc hw (admits_iff.2 ⟨hd, hm, hr⟩), fun h => ?_⟩
  refine exec_of_not_admitted hc (Bool.eq_false_iff.2 fun ha => ?_)
  obtain ⟨hd, hm, hr⟩ := admits_iff.1 ha
  obtain ⟨e, hp⟩ | ⟨e, hp⟩ | ⟨e, hp⟩ := h
  · exact hp (hd e)
  · exact hp (hm e)
  · exact hr e hp

/-- Settles O48, by the cases of one operation. -/
theorem lengthIsTheLoadedFrames : Obligations.LengthIsTheLoadedFrames := by
  refine ⟨fun _ => rfl, fun s t i he => ?_⟩
  obtain ⟨r, rfl, hc, -, -, hr⟩ | ⟨rfl, rfl⟩ | ⟨r, rfl, hr, rfl⟩ | ⟨rfl, -, rfl⟩ | ⟨r, rfl, hr, rfl⟩
      | ⟨j, rfl, -, -, -, rfl⟩ := exec_next_cases he
  · cases i with
    | clear => exact absurd rfl hc
    | load r => simp [hr r (.inl rfl)]
    | decode r => simp [hr r (.inr rfl)]
    | _ => rfl
  · rfl
  · simp [hr]
  · simp
  · simp [hr]
  · rfl

/-- Settles O49, by the cases of one step. -/
theorem configurationIsNeverWritten : Obligations.ConfigurationIsNeverWritten := fun _ _ => step_cfg

/-- Settles O50: after the load and the pass nothing is left of the earlier block but its configuration. -/
theorem decodeForgetsTheEarlierFrame : Obligations.DecodeForgetsTheEarlierFrame := by
  intro s t r hcfg hr
  have same : (s.loadFrame r).descrambleBuffer.sameBlock (t.loadFrame r).descrambleBuffer := by
    simp [State.sameBlock, hcfg]
  exact ⟨_, _, exec_decode_of_fits hr, exec_decode_of_fits (hcfg ▸ hr), congrArg some (mapResponse_congr same), same⟩

/-- Settles O53: reset meets the invariant and holds nothing, and every served request keeps both. -/
theorem reachableBlocksHoldTheLoadedFrame : Obligations.ReachableBlocksHoldTheLoadedFrame := fun c qs =>
  afterScript_inv_holds (State.inv_resetOf c) (State.resetOf_holds c) qs

/-- Settles O1: with `LEN` 0 every read is out of range, and CLEAR sets every field but the index and configuration. -/
theorem resetLeavesEmptyUnaddressableBlock : Obligations.ResetLeavesEmptyUnaddressableBlock := by
  intro c
  refine ⟨rfl, rfl, rfl, rfl, fun a => readU8_error (Nat.zero_le a), fun s hcfg hidx => ?_⟩
  exact ⟨_, execClear_eq s, hcfg, rfl, rfl, rfl, hidx⟩

/-- Settles O2: no cell is listed, and 0 is within every `LEN_MAX`. -/
theorem resetMeetsInvariant : Obligations.ResetMeetsInvariant := fun c =>
  ⟨State.inv_resetOf c, State.resetOf_holds c⟩

end Sys2Proof.Machine
end

section
/-! PROOFS. The family `20_memory.md`: what reads see of the buffer and leave of the block, and one step. First the laws
(a step by its script's head, the answer no operation looks at, in-range reads), then the theorems that settle the
statements. -/

namespace Sys2Proof.Machine

/-! ### One step -/

theorem step_of_script_nil {s : State} (h : s.script = []) : step s = .next s := by rw [step, h]

theorem step_of_decoded {s : State} {q : Request} {rest : List Request} {i : Instr} (hs : s.script = q :: rest)
    (hq : decodeRequest q = .ok i) : step s = exec i { s with script := rest } := by
  simp only [step, hs, hq]

/-! ### No operation looks at the answer before it (R124) -/

theorem State.loadFrame_answer (f : List Byte) (r : Response) (s : State) :
    (s.answer r).loadFrame f = (s.loadFrame f).answer r := rfl

theorem State.descrambleBuffer_answer (r : Response) (s : State) :
    (s.answer r).descrambleBuffer = s.descrambleBuffer.answer r := by
  rw [State.descrambleBuffer_eq, State.descrambleBuffer_eq]
  rfl

theorem answerRead_answer {α : Type} (result : α → Result) (v : Except Nat α) (r : Response) (s : State) :
    answerRead result v (s.answer r) = answerRead result v s := by
  cases v <;> rfl

theorem answerField_answer {α : Type} (result : α → Result) (v : Except DecodeError α) (r : Response) (s : State) :
    answerField result v (s.answer r) = answerField result v s := by
  cases v <;> rfl

/-- The answer a block has given is overwritten by every operation that answers, and read by none. -/
theorem exec_answer (i : Instr) (r : Response) (s : State) : exec i (s.answer r) = exec i s := by
  cases i with
  | clear => rfl
  | load f => rfl
  | descr => simp [exec, execDescr_eq, State.descrambleBuffer_answer]
  | map => rfl
  | decode f => simp [exec, execDecode_eq, State.loadFrame_answer, State.descrambleBuffer_answer]
  | rdi16 o => simp [exec, execRdi16_eq, answerRead_answer]
  | rdu8 o => simp [exec, execRdu8_eq, answerRead_answer]
  | dstep => rfl
  | hVer | hProd | fPh | fEc | fSalt | fTds | fOrp | fCl | fTemp | fBatt | hHold | hBklt => exact answerField_answer ..

theorem opClass_of_mem_fieldRows : ∀ f ∈ fieldRows, f.op.opClass = .field := by decide

/-- A field operation is among those `exec_reads` speaks of. -/
theorem ne_writer_of_field {i : Instr} (h : i.opClass = .field) :
    i ≠ .clear ∧ i ≠ .descr ∧ i ≠ .dstep ∧ (∀ r, i ≠ .load r) ∧ ∀ r, i ≠ .decode r := by
  refine ⟨?_, ?_, ?_, fun r => ?_, fun r => ?_⟩ <;> rintro rfl <;> cases h

/-! ### In-range reads -/

theorem exec_rdu8_of_lt {s : State} {o : Nat} (hp : s.phase ≠ .empty) (h : o < s.len) :
    exec (.rdu8 o) s = .next (s.answer (.ok (.u8 (s.mem.read o)))) := by
  rw [exec, execRdu8_eq, if_pos hp, readU8_ok h, answerRead]

theorem exec_rdi16_of_lt {s : State} {o : Nat} (hp : s.phase ≠ .empty) (h : o + 1 < s.len) :
    exec (.rdi16 o) s = .next (s.answer (.ok (.i16 (s.raw o)))) := by
  rw [exec, execRdi16_eq, if_pos hp, readI16_ok h, answerRead, sext16_bytes, State.raw]

/-- Bits 15:8 of a two-byte read are the cell at its offset (R33). -/
theorem State.raw_upper (s : State) (o : Nat) : (BitVec.ofInt 16 (s.raw o)).extractLsb' 8 8 = s.mem.read o := by
  rw [State.raw, BitVec.ofInt_toInt, BitVec.extractLsb'_append_eq_left]

/-- Bits 7:0 of a two-byte read are the cell after its offset (R33). -/
theorem State.raw_lower (s : State) (o : Nat) : (BitVec.ofInt 16 (s.raw o)).extractLsb' 0 8 = s.mem.read (o + 1) := by
  rw [State.raw, BitVec.ofInt_toInt, BitVec.extractLsb'_append_eq_right]

/-! ### The statements -/

/-- Settles O22: RDU8 at `a` answers the cell `State.raw_upper` and `State.raw_lower` find in the two-byte reads. -/
theorem overlappingReadsSeeTheSameCells : Obligations.OverlappingReadsSeeTheSameCells := by
  intro s a hp h1 hlt
  have hprev : a - 1 + 1 = a := by omega
  refine ⟨s.mem.read a, s.raw a, s.raw (a - 1), exec_rdu8_of_lt hp (by omega), exec_rdi16_of_lt hp hlt,
    exec_rdi16_of_lt hp (by omega), s.raw_upper a, ?_⟩
  rw [s.raw_lower, hprev]

/-- Settles O47: such an operation only answers (`exec_reads`), and its answer makes no difference (`exec_answer`). -/
theorem readsLeaveTheBlockAndRepeat : Obligations.ReadsLeaveTheBlockAndRepeat := by
  intro s i hi
  obtain ⟨r, hr⟩ : ∃ r, exec i s = .next (s.answer r) := by
    obtain rfl | ⟨o, rfl⟩ | ⟨o, rfl⟩ | ⟨f, hf, rfl⟩ := hi
    · exact exec_reads s (by simp)
    · exact exec_reads s (by simp)
    · exact exec_reads s (by simp)
    · exact exec_reads s (ne_writer_of_field (opClass_of_mem_fieldRows f hf))
  exact ⟨s.answer r, hr, (exec_answer i r s).trans hr, s.sameBlock_answer r, rfl, fun _ => rfl⟩

/-- Settles O7, by the definition of a step at either form of the script. -/
theorem stepRunsTheDecodedRequest : Obligations.StepRunsTheDecodedRequest :=
  ⟨fun _ _ _ _ => step_of_decoded, fun _ => step_of_script_nil⟩

end Sys2Proof.Machine
end

section
/-! PROOFS. The family `30_encoding.md`: the code list read in both directions, the host's codes, and the bytes MAP does
not look at. First the laws (the encoder, its inverse, what MAP reads), then the theorems that settle the statements. -/

namespace Sys2Proof

/-! ### From an operation to its request and back (R55, R56, R57) -/

theorem encode_wf (i : Instr) : (encode i).wf = true := by
  cases i <;> rfl

theorem decode_encode (i : Instr) : decode (encode i) = .ok i := by
  cases i <;> simp [decode, encode, codeOf, frameOf, offsetOf]

/-- The encoder lets the sequencer ask wherever a host may not (R55). -/
theorem encode_issuer_or_host (i : Instr) : (encode i).issuer = .sequencer ∨ i.opClass = .host := by
  cases h : i.opClass <;> simp [encode, issuerOfClass, h]

theorem decodeRequest_encode (i : Instr) : decodeRequest (encode i) = .ok i := by
  rw [decodeRequest_of_ok (decode_encode i), if_pos (encode_issuer_or_host i)]

/-! ### From a request to its operation and back (R56, R57, R58) -/

/-- A code is its class field over its number field (R57). -/
theorem code_eq_class_num (op : Byte) : op = BitVec.ofNat 8 (16 * codeClass op + codeNum op) := by
  apply BitVec.eq_of_toNat_eq
  simp only [codeClass, codeNum, BitVec.extractLsb'_toNat, BitVec.toNat_ofNat]
  omega

/-- The encoder undoes the code list: an operation named by `op` is asked for with `op` by the issuer of its class, with
the operand of the two given that it carries. -/
theorem encode_of_operationOf {op : Byte} {f : List Byte → Nat → Instr} (h : operationOf op = some f) (r : List Byte)
    (o : Nat) :
    encode (f r o) = ⟨issuerOf op, op, if frameCodes.contains op then r else [],
      if offsetCodes.contains op then o else 0⟩ := by
  rw [code_eq_class_num op]
  unfold operationOf at h
  split at h <;> cases h
  all_goals
    next hclass hnum =>
      rw [hclass, hnum]
      rfl

theorem codeOf_of_decode {q : Request} {i : Instr} (h : decode q = .ok i) : codeOf i = q.code := by
  cases hq : operationOf q.code with
  | none => rw [decode_of_none hq] at h; cases h
  | some f =>
    rw [decode_of_some hq] at h
    cases h
    exact congrArg Request.code (encode_of_operationOf hq q.frame q.offset)

/-- The codes `Request.wf` lets an issuer ask for (R55, R58). -/
def codesOf : Issuer → List Byte
  | .host => hostCodes
  | .sequencer => innerCodes

theorem Request.wf_iff {q : Request} :
    q.wf = true ↔
      q.code ∈ codesOf q.issuer ∧ (q.code ∈ frameCodes ∨ q.frame = []) ∧ (q.code ∈ offsetCodes ∨ q.offset = 0) := by
  unfold Request.wf
  cases q.issuer <;> simp [codesOf, and_assoc]

/-- Every code of the list names an operation, and its class says who may ask for it. -/
theorem operationOf_isSome_of_mem :
    ∀ who : Issuer, ∀ op ∈ codesOf who, (operationOf op).isSome = true ∧ issuerOf op = who
  | .host => by decide
  | .sequencer => by decide

/-- Every well-formed request is the encoding of an operation. -/
theorem exists_encode_of_wf {q : Request} (h : q.wf = true) : ∃ i, encode i = q := by
  obtain ⟨hcode, hframe, hoffset⟩ := Request.wf_iff.1 h
  obtain ⟨hsome, hissuer⟩ := operationOf_isSome_of_mem q.issuer q.code hcode
  obtain ⟨f, hf⟩ := Option.isSome_iff_exists.1 hsome
  refine ⟨f q.frame q.offset, (encode_of_operationOf hf q.frame q.offset).trans ?_⟩
  have hr : (if frameCodes.contains q.code then q.frame else []) = q.frame := by
    rcases hframe with hm | hm <;> simp [hm]
  have ho : (if offsetCodes.contains q.code then q.offset else 0) = q.offset := by
    rcases hoffset with hm | hm <;> simp [hm]
  rw [hr, ho, hissuer]

/-! ### The host's codes (R58) -/

theorem codeOf_le_of_host {i : Instr} (h : i.opClass = .host) : (codeOf i).toNat ≤ 6 := by
  cases i with
  | clear | load | descr | map | decode | rdi16 | rdu8 => simp [codeOf]
  | hVer | hProd | fPh | fEc | fSalt | fTds | fOrp | fCl | fTemp | fBatt | hHold | hBklt | dstep => cases h

/-- A host's request whose code is none of the seven commands' is rejected. -/
theorem decodeRequest_of_host_code_gt {q : Request} (hq : q.issuer = .host) (hc : q.code.toNat > 6) :
    ∃ e, decodeRequest q = .error e := by
  cases hd : decode q with
  | error e => exact ⟨e, decodeRequest_of_error hd⟩
  | ok i =>
    have hclass : i.opClass ≠ .host := fun h => by
      have := codeOf_le_of_host h
      rw [codeOf_of_decode hd] at this
      omega
    exact ⟨_, by rw [decodeRequest_of_ok hd, if_neg (by simp [hq, hclass])]⟩

end Sys2Proof

namespace Sys2Proof.Machine

theorem step_of_rejected {s : State} {q : Request} {rest : List Request} {e : Reject} (hs : s.script = q :: rest)
    (hq : decodeRequest q = .error e) :
    step s = .next (State.answer (.refused (.unknownCommand q.code)) { s with script := rest }) := by
  simp only [step, hs, hq, refuseUnknown_eq hq]

/-! ### What MAP reads (R46 to R50) -/

/-- Two blocks agree on all that the frame layout assigns a meaning: bytes 1 to 16 and bits 7:3 of byte 17 (R46, R48,
R50), in frames of one length under one configuration. -/
structure State.AgreeOnLayout (s t : State) : Prop where
  cfg    : t.cfg = s.cfg
  len    : t.len = s.len
  bytes  : ∀ a, 1 ≤ a → a ≤ 16 → t.mem.read a = s.mem.read a
  status : t.mem.read 17 &&& 0xF8 = s.mem.read 17 &&& 0xF8

/-- The hold field lies in bits 7:4 of the status byte (R101). -/
theorem holdBits_and_upper_five (v : Byte) : holdBits (v &&& 0xF8) = holdBits v := by
  apply BitVec.eq_of_getLsbD_eq
  intro i hi
  interval_cases i <;> simp [holdBits]

/-- The backlight flag is bit 3 of the status byte (R102). -/
theorem backlightBit_and_upper_five (v : Byte) : backlightBit (v &&& 0xF8) = backlightBit v := by
  simp [backlightBit, BitVec.and_assoc, BitVec.ushiftRight_and_distrib]

/-- A field operation on one byte sees the length and what its rule keeps of that byte. -/
theorem fieldU8_map_congr {α : Type} {s t : State} {o : Nat} {g : Byte → α} (f : FieldName) (hl : t.len = s.len)
    (hg : g (t.mem.read o) = g (s.mem.read o)) : (fieldU8 f o t).map g = (fieldU8 f o s).map g := by
  by_cases h : s.len ≤ o
  · rw [fieldU8_error h, fieldU8_error (hl ▸ h)]
  · have hs : o < s.len := by omega
    rw [fieldU8_ok hs, fieldU8_ok (hl ▸ hs)]
    exact congrArg Except.ok hg

namespace State.AgreeOnLayout

variable {s t : State} (h : s.AgreeOnLayout t)
include h

theorem fieldU8 {o : Nat} (f : FieldName) (h1 : 1 ≤ o) (h2 : o ≤ 16) :
    Machine.fieldU8 f o t = Machine.fieldU8 f o s := by
  rw [Machine.fieldU8, Machine.fieldU8, readU8, readU8, h.len, h.bytes o h1 h2]

theorem fieldI16 {o : Nat} (f : FieldName) (h1 : 1 ≤ o) (h2 : o ≤ 15) :
    Machine.fieldI16 f o t = Machine.fieldI16 f o s := by
  rw [Machine.fieldI16, Machine.fieldI16, readI16, readI16, Memory.readN_two, Memory.readN_two, h.len,
    h.bytes o h1 (by omega), h.bytes (o + 1) (by omega) (by omega)]

theorem valueHold : Machine.valueHold t = Machine.valueHold s :=
  fieldU8_map_congr .H_HOLD h.len (by rw [← holdBits_and_upper_five, h.status, holdBits_and_upper_five])

theorem valueBklt : Machine.valueBklt t = Machine.valueBklt s :=
  fieldU8_map_congr .H_BKLT h.len (by rw [← backlightBit_and_upper_five, h.status, backlightBit_and_upper_five])

/-- MAP's answer is a function of the configuration, the length and the assigned positions (R50, R107). -/
theorem mapResponse : Machine.mapResponse t = Machine.mapResponse s := by
  simp (disch := decide) only [Machine.mapResponse, snapshotOf, decodeErrors, h.cfg, h.valueHold, h.valueBklt,
    valueVer, valueProd, valuePh, valueEc, valueSalt, valueTds, valueOrp, valueCl, valueTemp, valueBatt,
    h.fieldU8, h.fieldI16]

end State.AgreeOnLayout

theorem exec_map_of_descrambled {s : State} (h : s.phase = .descrambled) :
    exec .map s = .next (s.answer (mapResponse s)) := by
  rw [exec, execMap_eq, if_pos h]

/-! ### The statements -/

/-- Settles O5: a well-formed request is an encoding (`exists_encode_of_wf`), so that the second half is the first
(`decodeRequest_encode`) read at that operation. -/
theorem decodeAndEncodeAreInverse : Obligations.DecodeAndEncodeAreInverse := by
  refine ⟨fun i => ⟨encode_wf i, decodeRequest_encode i⟩, fun q hq => ?_⟩
  obtain ⟨i, rfl⟩ := exists_encode_of_wf hq
  exact ⟨i, decodeRequest_encode i, rfl⟩

/-- Settles O6: such a request is rejected (`decodeRequest_of_host_code_gt`), whichever reason is given. -/
theorem hostCodeOutsideCommandsIsRefused : Obligations.HostCodeOutsideCommandsIsRefused := by
  intro s q rest hissuer hcode hscript
  obtain ⟨e, he⟩ := decodeRequest_of_host_code_gt hissuer hcode
  exact step_of_rejected hscript he

/-- Settles O37: both blocks answer `mapResponse`, which sees the assigned positions only. -/
theorem mapIgnoresUnassignedPositions : Obligations.MapIgnoresUnassignedPositions := by
  intro s t hs ht hcfg hlen hbytes hstatus
  have h : s.AgreeOnLayout t := ⟨hcfg, hlen, hbytes, hstatus⟩
  exact ⟨mapResponse s, exec_map_of_descrambled hs, h.mapResponse ▸ exec_map_of_descrambled ht⟩

/-- Settles O4: decoding looks the code up, and the list's twenty rows are the rules `operationOf_00` to
`operationOf_20`. -/
theorem operationCodesDecodeAsListed : Obligations.OperationCodesDecodeAsListed := by
  intro who r o
  simp [decode]

end Sys2Proof.Machine
end

section
/-! PROOFS. The family `40_descrambler.md`: the pair step and the pass. First the laws (the bytes of a pair step and its
inverse, the pass read from the front of a frame and its closed form, DSTEP and DESCR), then the theorems that settle
the statements. -/

namespace Sys2Proof.Machine

/-! ### The two halves of a byte (R7, R67)

An identity of bytes whose bits are moved and inverted is proved at each of the eight bits. -/

theorem toNat_and_le (v mask : Byte) : (v &&& mask).toNat ≤ mask.toNat := by
  rw [BitVec.toNat_and]
  exact Nat.and_le_right

theorem evenToOdd_toNat (v : Byte) : (evenToOdd v).toNat = 2 * (v &&& 0x55).toNat := by
  have h : (v &&& 0x55).toNat ≤ 0x55 := toNat_and_le v 0x55
  rw [evenToOdd, BitVec.toNat_shiftLeft, Nat.shiftLeft_eq]
  omega

/-- The bit a shift down drops is clear in the odd half. -/
theorem oddToEven_toNat (v : Byte) : 2 * (oddToEven v).toNat = (v &&& 0xAA).toNat := by
  have h : (v &&& 0xAA).toNat % 2 = 0 := by
    rw [BitVec.toNat_and, show 2 = 2 ^ 1 from rfl, Nat.and_mod_two_pow]
    simp
  rw [oddToEven, BitVec.toNat_ushiftRight, Nat.shiftRight_eq_div_pow]
  omega

theorem evenToOdd_and_oddToEven (u v : Byte) : evenToOdd u &&& oddToEven v = 0 := by
  ext i hi
  interval_cases i <;> simp [evenToOdd, oddToEven]

/-- Halves that share no bit: their or is their sum. -/
theorem evenToOdd_or_oddToEven_toNat (u v : Byte) :
    (evenToOdd u ||| oddToEven v).toNat = (evenToOdd u).toNat + (oddToEven v).toNat := by
  rw [← BitVec.add_eq_or_of_and_eq_zero _ _ (evenToOdd_and_oddToEven u v),
    BitVec.toNat_add_of_and_eq_zero (evenToOdd_and_oddToEven u v)]

theorem evenToOdd_and_evenMask (v : Byte) : evenToOdd v &&& 0x55 = 0 := by
  ext i hi
  interval_cases i <;> simp [evenToOdd]

theorem oddToEven_and_oddMask (v : Byte) : oddToEven v &&& 0xAA = 0 := by
  ext i hi
  interval_cases i <;> simp [oddToEven]

/-! ### The bytes of a pair step (R65, R70)

`newLower hi lo` is `newUpper lo hi` by definition: the two new bytes are one function, which takes the cell's own byte
first. The laws are stated for `newUpper`. -/

theorem newLower_eq (hi lo : Byte) : newLower hi lo = newUpper lo hi := rfl

theorem newUpper_eq (own other : Byte) : newUpper own other = ~~~(evenToOdd own ||| oddToEven other) :=
  complement_eq _

theorem newUpper_toNat (own other : Byte) :
    (newUpper own other).toNat = 0xFF - ((evenToOdd own).toNat + (oddToEven other).toNat) := by
  rw [newUpper_eq, BitVec.toNat_not, evenToOdd_or_oddToEven_toNat]

theorem newUpper_odd (own other : Byte) {k : Nat} (hk : k < 4) :
    (newUpper own other).getLsbD (2 * k + 1) = !own.getLsbD (2 * k) := by
  interval_cases k <;> simp [newUpper_eq, evenToOdd, oddToEven]

theorem newUpper_even (own other : Byte) {k : Nat} (hk : k < 4) :
    (newUpper own other).getLsbD (2 * k) = !other.getLsbD (2 * k + 1) := by
  interval_cases k <;> simp [newUpper_eq, evenToOdd, oddToEven]

/-- A byte is its odd half and its even half. -/
theorem newUpper_eq_halves (own other : Byte) :
    newUpper own other = (~~~evenToOdd own &&& 0xAA) ||| (~~~oddToEven other &&& 0x55) := by
  ext i hi
  interval_cases i <;> simp [newUpper_eq, evenToOdd, oddToEven]

/-- The step at the lower pair moves the odd half back down: what it takes from the cell above is that cell's raw even
half, inverted twice (R71). -/
theorem not_oddToEven_newUpper (own other : Byte) : ~~~oddToEven (newUpper own other) &&& 0x55 = own &&& 0x55 := by
  ext i hi
  interval_cases i <;> simp [newUpper_eq, evenToOdd, oddToEven]

theorem not_evenToOdd_newUpper (own other : Byte) : ~~~evenToOdd (newUpper own other) &&& 0xAA = other &&& 0xAA := by
  ext i hi
  interval_cases i <;> simp [newUpper_eq, evenToOdd, oddToEven]

theorem newUpper_and_oddMask (own other : Byte) : newUpper own other &&& 0xAA = ~~~evenToOdd own &&& 0xAA := by
  ext i hi
  interval_cases i <;> simp [newUpper_eq, evenToOdd, oddToEven]

/-- The old byte of a cell from its new byte and the new byte of the pair's other cell: ISTEP of 95_test_vectors.md,
section 4. -/
def oldByte (own other : Byte) : Byte := oddToEven (~~~own) ||| evenToOdd (~~~other)

theorem oldByte_newUpper (x y : Byte) : oldByte (newUpper x y) (newUpper y x) = x := by
  ext i hi
  interval_cases i <;> simp [newUpper_eq, oldByte, evenToOdd, oddToEven]

theorem newUpper_oldByte (x y : Byte) : newUpper (oldByte x y) (oldByte y x) = x := by
  ext i hi
  interval_cases i <;> simp [newUpper_eq, oldByte, evenToOdd, oddToEven]

/-! ### The pass from the front of a frame (R68)

The last step of a pass is the one at index 1, and the steps before it do not touch cell 0: they are the pass over the
rest of the frame. So `descramble` is a recursion on the frame as a list. -/

/-- The pair step at index 1, on a raw byte in front of a descrambled rest. -/
def stepFront (a : Byte) : List Byte → List Byte
  | [] => [a]
  | y :: d => newUpper a y :: newUpper y a :: d

/-- The indices of a longer pass are those of the rest, one higher, and then 1. -/
theorem pairIndices_succ (n : Nat) : pairIndices (n + 2) = (pairIndices (n + 1)).map (· + 1) ++ [1] := by
  induction n with
  | zero => rfl
  | succ n ih =>
    calc pairIndices (n + 3) = (n + 2) :: pairIndices (n + 2) := rfl
      _ = (n + 2) :: ((pairIndices (n + 1)).map (· + 1) ++ [1]) := by rw [ih]
      _ = (pairIndices (n + 2)).map (· + 1) ++ [1] := rfl

theorem pairStepOn_cons (a : Byte) (b : List Byte) {i : Nat} (h : 1 ≤ i) :
    pairStepOn (a :: b) (i + 1) = a :: pairStepOn b i := by
  obtain ⟨j, rfl⟩ := Nat.exists_eq_add_of_le' h
  rfl

theorem foldl_pairStepOn_cons (a : Byte) {is : List Nat} (h : ∀ i ∈ is, 1 ≤ i) (b : List Byte) :
    (is.map (· + 1)).foldl pairStepOn (a :: b) = a :: is.foldl pairStepOn b := by
  induction is generalizing b with
  | nil => rfl
  | cons i is ih =>
    rw [List.map_cons, List.foldl_cons, pairStepOn_cons a b (h i (by simp)), ih fun j hj => h j (by simp [hj])]
    rfl

@[simp] theorem descramble_nil : descramble [] = [] := rfl

@[simp] theorem length_descramble (r : List Byte) : (descramble r).length = r.length :=
  length_foldl_pairStepOn _ r

theorem descramble_cons (a : Byte) (r : List Byte) : descramble (a :: r) = stepFront a (descramble r) := by
  cases r with
  | nil => rfl
  | cons x t =>
    have hfront : descramble (a :: x :: t) = pairStepOn (a :: descramble (x :: t)) 1 := by
      rw [descramble, List.length_cons, List.length_cons, pairIndices_succ, List.foldl_append,
        foldl_pairStepOn_cons a fun i hi => (pairIndices_mem hi).1]
      rfl
    rw [hfront]
    cases hd : descramble (x :: t) with
    | nil => simpa using congrArg List.length hd
    | cons y d => rfl

theorem exists_descramble_cons (a : Byte) (r : List Byte) : ∃ y d, descramble (a :: r) = y :: d :=
  List.exists_cons_of_length_eq_add_one (length_descramble (a :: r))

theorem descramble_eq_of_length_lt_two {r : List Byte} (h : r.length < 2) : descramble r = r := by
  match r, h with
  | [], _ => rfl
  | [_], _ => rfl

theorem descramble_pair (x y : Byte) : descramble [x, y] = [newUpper x y, newUpper y x] := rfl

/-! ### The pass from the end of a frame (R68) -/

theorem stepFront_append (a : Byte) {d : List Byte} (h : d ≠ []) (e : List Byte) :
    stepFront a (d ++ e) = stepFront a d ++ e := by
  cases d with
  | nil => exact absurd rfl h
  | cons y d => rfl

/-- The first step of the pass fixes the last byte, and the rest of the pass does not see it. -/
theorem descramble_append_pair (r : List Byte) (lo hi : Byte) :
    descramble (r ++ [lo, hi]) = descramble (r ++ [newLower hi lo]) ++ [newUpper hi lo] := by
  induction r with
  | nil => rfl
  | cons a r ih =>
    have hne : descramble (r ++ [newLower hi lo]) ≠ [] := List.ne_nil_of_length_pos (by simp)
    rw [List.cons_append, descramble_cons, ih, stepFront_append a hne, ← descramble_cons, List.cons_append]

/-! ### The pass is a bijection (R72 (d)) -/

theorem stepFront_injective {a b : Byte} {d e : List Byte} (hlen : d.length = e.length)
    (h : stepFront a d = stepFront b e) : a = b ∧ d = e := by
  match d, e, hlen with
  | [], [], _ => exact ⟨by simpa [stepFront] using h, rfl⟩
  | x :: d, y :: e, _ =>
    obtain ⟨hlower, hupper, rfl⟩ : newUpper a x = newUpper b y ∧ newUpper x a = newUpper y b ∧ d = e := by
      simpa [stepFront] using h
    have ha : a = b := by rw [← oldByte_newUpper a x, hlower, hupper, oldByte_newUpper]
    have hx : x = y := by rw [← oldByte_newUpper x a, hlower, hupper, oldByte_newUpper]
    exact ⟨ha, by rw [hx]⟩

theorem descramble_injective {r r' : List Byte} (h : descramble r = descramble r') : r = r' := by
  have hlen : r.length = r'.length := by simpa using congrArg List.length h
  induction r generalizing r' with
  | nil => exact (List.eq_nil_of_length_eq_zero hlen.symm).symm
  | cons a t ih =>
    obtain ⟨a', t', rfl⟩ := List.exists_cons_of_length_eq_add_one hlen.symm
    have hlen' : t.length = t'.length := by simpa using hlen
    rw [descramble_cons, descramble_cons] at h
    obtain ⟨rfl, ht⟩ := stepFront_injective (by simpa using hlen') h
    rw [ih ht hlen']

/-- The step at the front is undone first; what it leaves in cell 1 heads a shorter frame. -/
theorem exists_descramble_eq_cons (x : Byte) (d : List Byte) : ∃ r, descramble r = x :: d := by
  induction d generalizing x with
  | nil => exact ⟨[x], rfl⟩
  | cons y d ih =>
    obtain ⟨r, hr⟩ := ih (oldByte y x)
    exact ⟨oldByte x y :: r, by rw [descramble_cons, hr, stepFront, newUpper_oldByte, newUpper_oldByte]⟩

theorem descramble_surjective (d : List Byte) : ∃ r, descramble r = d := by
  cases d with
  | nil => exact ⟨[], rfl⟩
  | cons x d => exact exists_descramble_eq_cons x d

/-! ### The closed form of the pass (R71) -/

/-- Cell 0 sees the raw cells 0 and 1 only. -/
theorem descramble_zero (a b c : Byte) (r : List Byte) :
    (descramble (a :: b :: c :: r))[0]? = some ((~~~evenToOdd a &&& 0xAA) ||| (b &&& 0x55)) := by
  obtain ⟨y, d, hd⟩ := exists_descramble_cons c r
  rw [descramble_cons, descramble_cons b, hd, ← not_oddToEven_newUpper b y, ← newUpper_eq_halves]
  rfl

/-- Cell 1 of three: the last but one of its frame. -/
theorem descramble_one_of_three (a b c : Byte) :
    (descramble [a, b, c])[1]? = some ((c &&& 0xAA) ||| (~~~oddToEven a &&& 0x55)) := by
  rw [descramble_cons, descramble_pair, ← not_evenToOdd_newUpper b c, ← newUpper_eq_halves]
  rfl

/-- Cell 1 of more than three sees the raw cells beside it only. -/
theorem descramble_one (a b c e : Byte) (r : List Byte) :
    (descramble (a :: b :: c :: e :: r))[1]? =
      some ((~~~evenToOdd c &&& 0xAA) ||| (~~~oddToEven a &&& 0x55)) := by
  obtain ⟨y, d, hd⟩ := exists_descramble_cons e r
  rw [descramble_cons, descramble_cons b, descramble_cons c, hd, ← newUpper_and_oddMask c y,
    ← not_evenToOdd_newUpper b (newUpper c y), ← newUpper_eq_halves]
  rfl

theorem stepFront_getElem?_add_two (a : Byte) (d : List Byte) (j : Nat) : (stepFront a d)[j + 2]? = d[j + 1]? := by
  cases d <;> rfl

/-- A cell above the first sees nothing of the frame below its lower neighbour. -/
theorem descramble_getElem?_succ (r : List Byte) (j : Nat) :
    (descramble r)[j + 1]? = (descramble (r.drop j))[1]? := by
  induction j generalizing r with
  | zero => rfl
  | succ j ih =>
    cases r with
    | nil => rfl
    | cons a r => rw [descramble_cons, stepFront_getElem?_add_two, ih, List.drop_succ_cons]

theorem drop_eq_getD_cons {r : List Byte} {j : Nat} (h : j < r.length) : r.drop j = r.getD j 0 :: r.drop (j + 1) := by
  rw [List.drop_eq_getElem_cons h, List.getD_eq_getElem _ _ h]

section ClosedForm
variable {R : List Byte}

theorem descramble_first (h : 3 ≤ R.length) :
    (descramble R)[0]? = some ((~~~evenToOdd (R.getD 0 0) &&& 0xAA) ||| (R.getD 1 0 &&& 0x55)) := by
  match R, h with
  | a :: b :: c :: r, _ => exact descramble_zero a b c r

theorem descramble_interior {j : Nat} (hj : 1 ≤ j) (h : j + 3 ≤ R.length) :
    (descramble R)[j]? =
      some ((~~~evenToOdd (R.getD (j + 1) 0) &&& 0xAA) ||| (~~~oddToEven (R.getD (j - 1) 0) &&& 0x55)) := by
  obtain ⟨i, rfl⟩ := Nat.exists_eq_add_of_le' hj
  rw [descramble_getElem?_succ, drop_eq_getD_cons (by omega), drop_eq_getD_cons (j := i + 1) (by omega),
    drop_eq_getD_cons (j := i + 2) (by omega), drop_eq_getD_cons (j := i + 3) (by omega), descramble_one]
  rfl

theorem descramble_last_but_one (h : 3 ≤ R.length) :
    (descramble R)[R.length - 2]? =
      some ((R.getD (R.length - 1) 0 &&& 0xAA) ||| (~~~oddToEven (R.getD (R.length - 3) 0) &&& 0x55)) := by
  obtain ⟨n, hn⟩ := Nat.exists_eq_add_of_le' h
  have hdrop : R.drop n = [R.getD n 0, R.getD (n + 1) 0, R.getD (n + 2) 0] := by
    rw [drop_eq_getD_cons (by omega), drop_eq_getD_cons (j := n + 1) (by omega),
      drop_eq_getD_cons (j := n + 2) (by omega), List.drop_eq_nil_of_le (by omega)]
  rw [hn]
  exact (descramble_getElem?_succ R n).trans (hdrop ▸ descramble_one_of_three _ _ _)

theorem descramble_last (h : 2 ≤ R.length) :
    (descramble R)[R.length - 1]? =
      some ((~~~evenToOdd (R.getD (R.length - 1) 0) &&& 0xAA)
        ||| (~~~oddToEven (R.getD (R.length - 2) 0) &&& 0x55)) := by
  obtain ⟨n, hn⟩ := Nat.exists_eq_add_of_le' h
  have hdrop : R.drop n = [R.getD n 0, R.getD (n + 1) 0] := by
    rw [drop_eq_getD_cons (by omega), drop_eq_getD_cons (j := n + 1) (by omega), List.drop_eq_nil_of_le (by omega)]
  rw [hn, ← newUpper_eq_halves]
  exact (descramble_getElem?_succ R n).trans (hdrop ▸ rfl)

end ClosedForm

/-! ### DSTEP and DESCR (R65, R68, R69) -/

theorem exec_dstep_of_live {s : State} {i : Nat} (hi : s.idx = some i) (h1 : 1 ≤ i) (h2 : i < s.len) :
    exec .dstep s = .next ((s.pairStep i).answer (.ok .done)) := by
  simp [exec, execDstep, hi, h1, h2]

theorem exec_descr_of_raw {s : State} (h : s.phase = .raw) :
    exec .descr s = .next (s.descrambleBuffer.answer (.ok .done)) := by
  rw [exec, execDescr_eq, if_pos h]

theorem exec_descr_of_not_raw {s : State} (h : s.phase ≠ .raw) :
    exec .descr s = .next (s.answer (.refused (.wrongPhase .descr s.phase))) := by
  rw [exec, execDescr_eq, if_neg h]

theorem State.descrambleBuffer_mem_of_lt_two {s : State} (h : s.len < 2) : s.descrambleBuffer.mem = s.mem := by
  have hnone : pairIndices s.len = [] := by
    match s.len, h with
    | 0, _ => rfl
    | 1, _ => rfl
  rw [State.descrambleBuffer_mem, hnone, List.foldl_nil]

/-- The pass leaves the cells beyond the frame alone (R66). -/
theorem State.descrambleBuffer_read_of_le {s : State} {a : Nat} (h : s.len ≤ a) :
    s.descrambleBuffer.mem.read a = s.mem.read a := by
  rw [State.descrambleBuffer_mem, read_foldl_pairStep (fun _ => pairIndices_mem) s.mem h]

/-! ### The statements -/

/-- Settles O8: DSTEP is `pairStep` at the live index, read cell by cell (`read_pairStep`). -/
theorem dstepWritesItsPairOnly : Obligations.DstepWritesItsPairOnly := by
  intro s i hi h1 h2
  have hne : i ≠ i - 1 := by omega
  refine ⟨_, exec_dstep_of_live hi h1 h2, ?_, ?_, fun a ha ha' => ?_, rfl, rfl, rfl, rfl, rfl, rfl⟩
  · simp only [State.answer_mem, State.pairStep_mem, read_pairStep, if_neg hne, if_pos]
    rfl
  · simp only [State.answer_mem, State.pairStep_mem, read_pairStep, if_pos]
    rfl
  · simp [read_pairStep, ha, ha']

/-- Settles O11: the bits are `newUpper_odd` and `newUpper_even` for either cell, and `oldByte` inverts the step. -/
theorem dstepMovesAndInvertsEveryBit : Obligations.DstepMovesAndInvertsEveryBit := by
  refine ⟨fun s i hi h1 h2 => ⟨_, exec_dstep_of_live hi h1 h2, fun k hk => ?_⟩, ?_⟩
  · have hne : i ≠ i - 1 := by omega
    simp [read_pairStep, hne, newLower_eq, newUpper_odd, newUpper_even, hk]
  · refine Function.bijective_iff_has_inverse.2 ⟨fun q => (oldByte q.1 q.2, oldByte q.2 q.1), ?_, ?_⟩
    · rintro ⟨hi, lo⟩
      simp only [newLower_eq, oldByte_newUpper]
    · rintro ⟨hi, lo⟩
      simp only [newLower_eq, newUpper_oldByte]

/-- Settles O13: `State.frame_descrambleBuffer` for the frame, `read_foldl_pairStep` for the cells beyond it. -/
theorem descrInPlaceIsDescramble : Obligations.DescrInPlaceIsDescramble := fun s =>
  ⟨fun h => ⟨_, exec_descr_of_raw h, s.frame_descrambleBuffer, fun _ => State.descrambleBuffer_read_of_le,
      s.descrambleBuffer_len, rfl, rfl, s.descrambleBuffer_cfg, s.descrambleBuffer_script, rfl⟩,
    exec_descr_of_not_raw⟩

/-- Settles O14: `descramble_append_pair`, with the two new bytes written out. -/
theorem descrambleStepsFromTheEnd : Obligations.DescrambleStepsFromTheEnd := descramble_append_pair

/-- Settles O16: a clause for each place of a byte in its frame. -/
theorem descrambleClosedForm : Obligations.DescrambleClosedForm := by
  refine fun R => ⟨descramble_eq_of_length_lt_two, ?_, fun h => ⟨length_descramble R, descramble_first h,
    fun j => descramble_interior, descramble_last_but_one h, descramble_last (by omega)⟩⟩
  rintro x y rfl
  rw [descramble_pair, newUpper_eq, newUpper_eq]

/-- Settles O17: the pass undone from the front gives a frame, and injectivity that there is no other. -/
theorem descrambleIsLengthPreservingBijection : Obligations.DescrambleIsLengthPreservingBijection := by
  refine ⟨length_descramble, fun d => ?_⟩
  obtain ⟨r, hr⟩ := descramble_surjective d
  exact ⟨r, hr, fun r' hr' => descramble_injective (hr'.trans hr.symm)⟩

/-- Settles O18: up to `m-3` the closed form reads raw bytes below the cut, and not the length. -/
theorem truncationChangesTheLastTwoBytesOnly : Obligations.TruncationChangesTheLastTwoBytesOnly := by
  intro r m hm hmr j hj
  have hlen : (r.take m).length = m := List.length_take_of_le hmr
  have hget : ∀ i < m, (r.take m).getD i 0 = r.getD i 0 := fun i hi => by
    rw [List.getD_eq_getElem?_getD, List.getElem?_take_of_lt hi, List.getD_eq_getElem?_getD]
  rcases Nat.eq_zero_or_pos j with rfl | hpos
  · rw [descramble_first (by omega), descramble_first (by omega), hget 0 (by omega), hget 1 (by omega)]
  · rw [descramble_interior hpos (by omega), descramble_interior hpos (by omega), hget _ (by omega),
      hget _ (by omega)]

/-- Settles O9: DSTEP looks at `IDX` and its range before anything else. -/
theorem dstepStopsWithoutLivePair : Obligations.DstepStopsWithoutLivePair := by
  intro s h
  cases hi : s.idx with
  | none => simp [exec, execDstep, hi]
  | some i =>
    have hout : ¬(1 ≤ i ∧ i < s.len) := by have := h i hi; omega
    simp [exec, execDstep, hi, hout]

/-- Settles O10: the halves fit their places (`evenToOdd_toNat`, `oddToEven_toNat`) and share no bit
(`evenToOdd_or_oddToEven_toNat`). -/
theorem pairStepNeverOverflows : Obligations.PairStepNeverOverflows := by
  intro hi lo
  have heven : (hi &&& 0x55).toNat ≤ 0x55 := toNat_and_le hi 0x55
  have hodd : (lo &&& 0xAA).toNat ≤ 0xAA := toNat_and_le lo 0xAA
  refine ⟨evenToOdd_toNat hi, oddToEven_toNat hi, ?_, evenToOdd_and_evenMask hi, ?_, oddToEven_and_oddMask lo,
    evenToOdd_or_oddToEven_toNat hi lo, newUpper_toNat hi lo, newUpper_toNat lo hi, newUpper_eq hi lo,
    newUpper_eq lo hi⟩
  · rw [evenToOdd_toNat]
    omega
  · have := oddToEven_toNat lo
    omega

/-- Settles O15: below two bytes the pass has no index, and at two its only index is 1. -/
theorem shortFramesPassUnchanged : Obligations.ShortFramesPassUnchanged := by
  refine ⟨fun s hp hlen => ⟨_, exec_descr_of_raw hp, fun a => ?_, s.descrambleBuffer_len, rfl⟩, rfl, rfl, rfl,
    fun s hp hlen => ⟨_, exec_descr_of_raw hp, _, exec_dstep_of_live rfl le_rfl (by simp [hlen]), fun a => ?_⟩⟩
  · rw [State.answer_mem, State.descrambleBuffer_mem_of_lt_two hlen]
  · rw [State.answer_mem, State.descrambleBuffer_mem, hlen]
    rfl

/-- Settles O19: the two vectors by evaluation; an admitted DESCR leaves phase DESCRAMBLED, which admits no other. -/
theorem descrambleIsNoInvolution : Obligations.DescrambleIsNoInvolution := by
  refine ⟨by decide, by decide, fun s t h hr => ?_⟩
  have hraw : s.phase = .raw := by
    by_contra hp
    rw [exec_descr_of_not_raw hp] at h
    cases h
    cases hr
  rw [exec_descr_of_raw hraw] at h
  cases h
  exact exec_descr_of_not_raw nofun

end Sys2Proof.Machine
end

section
/-! PROOFS. The family `41_field_extractor.md`: what RDI16 and RDU8 answer. First the laws (the number a two-byte read
stands for, the reads past the frame), then the theorems that settle the statements. -/

namespace Sys2Proof.Machine

/-! ### The number of a two-byte read (R81) -/

theorem sext16_eq_or (v : Nat) : sext16 v = v ∨ sext16 v = v - 65536 := by
  unfold sext16
  split
  · exact .inl rfl
  · exact .inr rfl

theorem State.raw_eq_sext16 (s : State) (o : Nat) :
    s.raw o = sext16 (256 * (s.mem.read o).toNat + (s.mem.read (o + 1)).toNat) :=
  (sext16_bytes _ _).symm

theorem State.raw_eq_or (s : State) (o : Nat) :
    s.raw o = 256 * (s.mem.read o).toNat + (s.mem.read (o + 1)).toNat
    ∨ s.raw o = 256 * (s.mem.read o).toNat + (s.mem.read (o + 1)).toNat - 65536 := by
  rw [s.raw_eq_sext16]
  exact_mod_cast sext16_eq_or _

theorem State.raw_range (s : State) (o : Nat) : -32768 ≤ s.raw o ∧ s.raw o ≤ 32767 := by
  have hhi := (s.mem.read o).isLt
  have hlo := (s.mem.read (o + 1)).isLt
  rw [s.raw_eq_sext16]
  exact sext16_range (by omega)

/-! ### Reads past the frame (R81, R85) -/

theorem exec_rdi16_of_le {s : State} {o : Nat} (hp : s.phase ≠ .empty) (h : s.len ≤ o + 1) :
    exec (.rdi16 o) s = .next (s.answer (.fault (.outOfRange o))) := by
  rw [exec, execRdi16_eq, if_pos hp, readI16_error h, answerRead, raise]

theorem exec_rdu8_of_le {s : State} {o : Nat} (hp : s.phase ≠ .empty) (h : s.len ≤ o) :
    exec (.rdu8 o) s = .next (s.answer (.fault (.outOfRange o))) := by
  rw [exec, execRdu8_eq, if_pos hp, readU8_error h, answerRead, raise]

/-! ### The statements -/

/-- Settles O20: below the boundary the answer is `State.raw`, whose number and range are its own laws; from the boundary
on the read raises. -/
theorem rdi16ReadsSignedBigEndian : Obligations.Rdi16ReadsSignedBigEndian := fun s o hp =>
  ⟨fun h => ⟨s.raw o, exec_rdi16_of_lt hp h, rfl, s.raw_eq_or o, s.raw_range o⟩, exec_rdi16_of_le hp⟩

/-- Settles O21: the read of one byte on either side of the boundary `LEN`. -/
theorem rdu8ReadsUnsignedByte : Obligations.Rdu8ReadsUnsignedByte := fun _ _ hp =>
  ⟨exec_rdu8_of_lt hp, exec_rdu8_of_le hp⟩

end Sys2Proof.Machine
end

section
/-! PROOFS. The family `42_sensor_mapper.md`: what the twelve field operations answer, and MAP. First the laws (operands
and answers, the sensors' values, the status byte, rounding and clamping, the fields a short frame misses), then the
theorems that settle the statements. -/
namespace Sys2Proof.Machine

/-! ### The operand of a field operation (R52, R86, R137) -/

theorem fieldI16_of_lt {f : FieldName} {o : Nat} {s : State} (h : o + 1 < s.len) : fieldI16 f o s = .ok (s.raw o) := by
  rw [fieldI16_ok h, s.raw_eq_sext16]

section Scaled
variable {α : Type} {f : FieldName} {o : Nat} {s : State}

theorem fieldI16_map_of_lt (scale : Int → α) (h : o + 1 < s.len) :
    (fieldI16 f o s).map scale = .ok (scale (s.raw o)) := by
  rw [fieldI16_of_lt h, Except.map]

theorem fieldI16_map_of_le (scale : Int → α) (h : s.len ≤ o + 1) : (fieldI16 f o s).map scale = .error ⟨f, o⟩ := by
  rw [fieldI16_error h, Except.map]

theorem fieldU8_map_of_lt (part : Byte → α) (h : o < s.len) :
    (fieldU8 f o s).map part = .ok (part (s.mem.read o)) := by
  rw [fieldU8_ok h, Except.map]

theorem fieldU8_map_of_le (part : Byte → α) (h : s.len ≤ o) : (fieldU8 f o s).map part = .error ⟨f, o⟩ := by
  rw [fieldU8_error h, Except.map]

/-- A field operation on two bytes sees the length and those bytes (R107). -/
theorem fieldI16_congr {t : State} (f : FieldName) (hl : t.len = s.len)
    (h : ∀ k < 2, t.mem.read (o + k) = s.mem.read (o + k)) : fieldI16 f o t = fieldI16 f o s := by
  have h0 : t.mem.read o = s.mem.read o := h 0 (by decide)
  have h1 : t.mem.read (o + 1) = s.mem.read (o + 1) := h 1 (by decide)
  rw [fieldI16, fieldI16, readI16, readI16, Memory.readN_two, Memory.readN_two, hl, h0, h1]

/-- A field operation on one byte that keeps it all. -/
theorem fieldU8_congr {t : State} (f : FieldName) (hl : t.len = s.len) (h : t.mem.read o = s.mem.read o) :
    fieldU8 f o t = fieldU8 f o s := by
  rw [fieldU8, fieldU8, readU8, readU8, hl, h]

end Scaled

/-! ### The answer of a field operation (R137) -/

section Answer
variable {α : Type} {result : α → Result} {v : Except DecodeError α} {s : State}

theorem answerField_of_ok {x : α} (h : v = .ok x) : answerField result v s = .next (s.answer (.ok (result x))) := by
  rw [h, answerField]

theorem answerField_of_error {e : DecodeError} (h : v = .error e) :
    answerField result v s = .next (s.answer (.fault (.decodeError e))) := by
  rw [h, answerField, raise]

/-- Two blocks whose outputs are equal are answered the same. -/
theorem answerField_congr {t : State} {w : Except DecodeError α} (h : w = v) :
    ∃ r, answerField result v s = .next (s.answer r) ∧ answerField result w t = .next (t.answer r) := by
  subst h
  cases w with
  | ok x => exact ⟨_, rfl, rfl⟩
  | error e => exact ⟨_, rfl, rfl⟩

/-- An output is present with a value exactly when its operation answers that value (R104). -/
theorem toOption_eq_some_iff_answerField (hr : result.Injective) (x : α) :
    v.toOption = some x ↔ answerField result v s = .next (s.answer (.ok (result x))) := by
  cases v with
  | ok y =>
    refine ⟨fun h => ?_, fun h => ?_⟩
    · cases h
      rfl
    · simp only [answerField, Host.Outcome.next.injEq] at h
      have hy : result y = result x := by simpa using congrArg State.response h
      rw [hr hy, Except.toOption]
  | error e =>
    refine ⟨nofun, fun h => ?_⟩
    simp only [answerField, raise, Host.Outcome.next.injEq] at h
    simpa using congrArg State.response h

end Answer

/-! ### The eight sensors' values (R92 to R99) -/

section Sensors
variable {s : State}

theorem valuePh_of_lt (h : 4 < s.len) : valuePh s = .ok ((s.raw 3 : Rat) / 100) := by
  rw [valuePh, fieldI16_map_of_lt _ h, scalePh_eq]

theorem valueEc_of_lt (h : 6 < s.len) : valueEc s = .ok (s.raw 5) := fieldI16_of_lt h

theorem valueSalt_of_lt (h : 6 < s.len) : valueSalt s = .ok ((s.raw 5 : Rat) * 11 / 20) := by
  rw [valueSalt, fieldI16_map_of_lt _ h, scaleSalt_eq]

theorem valueTds_of_lt (h : 8 < s.len) : valueTds s = .ok (s.raw 7) := fieldI16_of_lt h

theorem valueOrp_of_lt (h : 10 < s.len) : valueOrp s = .ok ((s.raw 9 : Rat) / 1000) := by
  rw [valueOrp, fieldI16_map_of_lt _ h, scaleOrp_eq]

theorem valueCl_of_lt (h : 12 < s.len) : valueCl s = .ok (scaleCl (s.raw 11)) := fieldI16_map_of_lt _ h

theorem valueTemp_of_lt (h : 14 < s.len) : valueTemp s = .ok ((s.raw 13 : Rat) / 10) := by
  rw [valueTemp, fieldI16_map_of_lt _ h, scaleTemp_eq]

theorem valueBatt_of_lt (h : 16 < s.len) : valueBatt s = .ok (scaleBatt s.cfg (s.raw 15)) := fieldI16_map_of_lt _ h

end Sensors

theorem scaleCl_of_neg {raw : Int} (h : raw < 0) : scaleCl raw = 0 := by rw [scaleCl_eq, if_pos h]

theorem scaleCl_of_nonneg {raw : Int} (h : 0 ≤ raw) : scaleCl raw = (raw : Rat) / 10 := by
  rw [scaleCl_eq, if_neg (by omega)]

theorem scaleCl_nonneg (raw : Int) : 0 ≤ scaleCl raw := by
  rcases lt_or_ge raw 0 with h | h
  · rw [scaleCl_of_neg h]
  · rw [scaleCl_of_nonneg h]
    positivity

/-! ### The status byte (R101, R102) -/

theorem holdBits_toNat (v : Byte) : (holdBits v).toNat = v.toNat / 16 := by
  rw [holdBits, BitVec.toNat_ushiftRight, Nat.shiftRight_eq_div_pow]

theorem backlightBit_toNat (v : Byte) : (backlightBit v).toNat = if v.getLsbD 3 then 1 else 0 := by
  have h : backlightBit v = if v.getLsbD 3 then 1 else 0 := by
    apply BitVec.eq_of_getLsbD_eq
    intro i hi
    interval_cases i <;> cases hb : v[3] <;> simp [backlightBit, hb]
  rw [h]
  split <;> rfl

theorem holdBits_congr {u v : Byte} (h : u &&& 0xF8 = v &&& 0xF8) : holdBits u = holdBits v := by
  rw [← holdBits_and_upper_five, h, holdBits_and_upper_five]

theorem backlightBit_congr {u v : Byte} (h : u &&& 0xF8 = v &&& 0xF8) : backlightBit u = backlightBit v := by
  rw [← backlightBit_and_upper_five, h, backlightBit_and_upper_five]

/-! ### Rounding and clamping (R7, R99, R100) -/

theorem clamp_eq_max_min (v : Int) {lo hi : Int} (h : lo ≤ hi) : clamp v lo hi = max lo (min v hi) := by
  unfold clamp
  split_ifs <;> omega

/-- Rounding does not pass an integer from below, whatever it does at a half. -/
theorem roundRat_le {tie : RoundTie} {q : Rat} {n : Int} (h : q ≤ n) : roundRat tie q ≤ n := by
  obtain ⟨hnear, -⟩ := roundRat_spec tie q
  have hlt : (roundRat tie q : Rat) < (n + 1 : Int) := by
    push_cast
    linarith [(abs_le.1 hnear).1]
  exact Int.lt_add_one_iff.1 (by exact_mod_cast hlt)

/-- Nor from above. -/
theorem le_roundRat {tie : RoundTie} {q : Rat} {n : Int} (h : n ≤ q) : n ≤ roundRat tie q := by
  obtain ⟨hnear, -⟩ := roundRat_spec tie q
  have hlt : ((n - 1 : Int) : Rat) < roundRat tie q := by
    push_cast
    linarith [(abs_le.1 hnear).2]
  exact Int.sub_one_lt_iff.1 (by exact_mod_cast hlt)

/-- The two rules differ at a half below zero only. -/
theorem roundRat_halfUp_eq_halfAway {q : Rat} (h : 0 ≤ q) : roundRat .halfUp q = roundRat .halfAway q := by
  simp [roundRat, not_lt.2 h]

section Battery
variable {c : Config} {raw : Int}

theorem scaleBatt_of_quotient_nonpos (h : battQuotient c raw ≤ 0) : scaleBatt c raw = 0 := by
  have hn : roundRat c.roundTie (battQuotient c raw) ≤ 0 := roundRat_le (by exact_mod_cast h)
  rw [scaleBatt, clamp_eq_max_min _ (by decide)]
  omega

theorem scaleBatt_of_le_quotient (h : 100 ≤ battQuotient c raw) : scaleBatt c raw = 100 := by
  have hn : 100 ≤ roundRat c.roundTie (battQuotient c raw) := le_roundRat (by exact_mod_cast h)
  rw [scaleBatt, clamp_eq_max_min _ (by decide)]
  omega

theorem scaleBatt_congr {d : Config} (h0 : d.batt0 = c.batt0) (h100 : d.batt100 = c.batt100)
    (htie : d.roundTie = c.roundTie) : scaleBatt d = scaleBatt c := by
  funext raw
  rw [scaleBatt, scaleBatt, battQuotient, battQuotient, h0, h100, htie]

theorem scaleBatt_bounds (c : Config) (raw : Int) : 0 ≤ scaleBatt c raw ∧ scaleBatt c raw ≤ 100 :=
  clamp_bounds _ (by decide)

/-- The quotient on the scale of the calibrated range: its distance from `BATT_0` in percent of the span. -/
theorem battQuotient_batt0 (c : Config) : battQuotient c c.batt0.toInt = 0 := by
  rw [battQuotient_eq]
  simp

theorem battQuotient_batt100 (c : Config) : battQuotient c c.batt100.toInt = 100 := by
  have hspan : (c.batt100.toInt : Rat) - c.batt0.toInt ≠ 0 := by exact_mod_cast Config.span_ne_zero c
  rw [battQuotient_eq, mul_div_assoc, div_self hspan, mul_one]

/-- With an ordered pair the quotient rises with the raw value. -/
theorem battQuotient_mono (h : c.batt0.toInt < c.batt100.toInt) : Monotone (battQuotient c) := by
  intro a b hab
  have hspan : (0 : Rat) < (c.batt100.toInt : Rat) - c.batt0.toInt := by
    rw [sub_pos]
    exact_mod_cast h
  have hab' : (a : Rat) ≤ b := by exact_mod_cast hab
  rw [battQuotient_eq, battQuotient_eq, div_le_div_iff_of_pos_right hspan]
  linarith

/-- With an inverted pair it falls (R100). -/
theorem battQuotient_strictAnti (h : c.batt100.toInt < c.batt0.toInt) : StrictAnti (battQuotient c) := by
  intro a b hab
  have hspan : (c.batt100.toInt : Rat) - c.batt0.toInt < 0 := by
    rw [sub_neg]
    exact_mod_cast h
  have hab' : (a : Rat) < b := by exact_mod_cast hab
  rw [battQuotient_eq, battQuotient_eq, div_lt_div_right_of_neg hspan]
  linarith

theorem scaleBatt_batt0 (c : Config) : scaleBatt c c.batt0.toInt = 0 :=
  scaleBatt_of_quotient_nonpos (battQuotient_batt0 c).le

theorem scaleBatt_batt100 (c : Config) : scaleBatt c c.batt100.toInt = 100 :=
  scaleBatt_of_le_quotient (battQuotient_batt100 c).ge

theorem scaleBatt_of_ordered (h : c.batt0.toInt < c.batt100.toInt) :
    (raw < c.batt0.toInt → scaleBatt c raw = 0) ∧ (c.batt100.toInt ≤ raw → scaleBatt c raw = 100) :=
  ⟨fun hr => scaleBatt_of_quotient_nonpos ((battQuotient_mono h hr.le).trans_eq (battQuotient_batt0 c)),
    fun hr => scaleBatt_of_le_quotient ((battQuotient_batt100 c).symm.trans_le (battQuotient_mono h hr))⟩

theorem scaleBatt_of_inverted (h : c.batt100.toInt < c.batt0.toInt) :
    (c.batt0.toInt < raw → scaleBatt c raw = 0) ∧ (raw ≤ c.batt100.toInt → scaleBatt c raw = 100) :=
  have hanti := (battQuotient_strictAnti h).antitone
  ⟨fun hr => scaleBatt_of_quotient_nonpos ((hanti hr.le).trans_eq (battQuotient_batt0 c)),
    fun hr => scaleBatt_of_le_quotient ((battQuotient_batt100 c).symm.trans_le (hanti hr))⟩

end Battery

/-! ### MAP (R103, R104, R105) -/

theorem errorOf_fieldI16 (f : FieldName) (o : Nat) (s : State) :
    errorOf (fieldI16 f o s) = if s.len < o + 2 then some ⟨f, o⟩ else none := by
  by_cases h : s.len ≤ o + 1
  · rw [fieldI16_error h, if_pos (by omega), errorOf]
  · rw [fieldI16_of_lt (by omega), if_neg (by omega), errorOf]

theorem errorOf_fieldU8 (f : FieldName) (o : Nat) (s : State) :
    errorOf (fieldU8 f o s) = if s.len < o + 1 then some ⟨f, o⟩ else none := by
  by_cases h : s.len ≤ o
  · rw [fieldU8_error h, if_pos (by omega), errorOf]
  · rw [fieldU8_ok (by omega), if_neg (by omega), errorOf]

/-- Scaling adds no failure. -/
theorem errorOf_map {α β : Type} (g : α → β) (v : Except DecodeError α) : errorOf (v.map g) = errorOf v := by
  cases v <;> rfl

/-- The DecodeErrors of the fields a frame of `n` bytes is too short for, in the order of R103. -/
def missingFields (n : Nat) : List DecodeError :=
  (fieldRows.filter fun f => decide (n < f.offset + f.width)).map fun f => ⟨f.name, f.offset⟩

/-- A field is absent by the length alone (R104). -/
theorem decodeErrors_eq_missingFields (s : State) : decodeErrors s = missingFields s.len := by
  have hrows : decodeErrors s =
      (fieldRows.map fun f => if s.len < f.offset + f.width then some ⟨f.name, f.offset⟩ else none).reduceOption := by
    simp only [decodeErrors, valueVer, valueProd, valuePh, valueEc, valueSalt, valueTds, valueOrp, valueCl, valueTemp,
      valueBatt, valueHold, valueBklt, errorOf_map, errorOf_fieldI16, errorOf_fieldU8]
    rfl
  rw [hrows, missingFields]
  induction fieldRows with
  | nil => rfl
  | cons f rows ih =>
    by_cases h : s.len < f.offset + f.width
    · simp [h, ih]
    · simp [h, ih]

theorem missingFields_of_complete {n : Nat} (h : 18 ≤ n) : missingFields n = [] := by
  have hrow : ∀ f ∈ fieldRows, f.offset + f.width ≤ 18 := by decide
  have hnone : ∀ f ∈ fieldRows, ¬decide (n < f.offset + f.width) = true := fun f hf => by
    have := hrow f hf
    simp
    omega
  rw [missingFields, List.filter_eq_nil_iff.2 hnone, List.map_nil]

/-- R104's table: the first field that a frame of `n < 18` bytes is too short for. -/
def firstMissingField (n : Nat) : DecodeError :=
  if n < 2 then ⟨.H_VER, 1⟩ else if n < 3 then ⟨.H_PROD, 2⟩ else if n < 5 then ⟨.pH, 3⟩
    else if n < 7 then ⟨.EC, 5⟩ else if n < 9 then ⟨.TDS, 7⟩ else if n < 11 then ⟨.ORP, 9⟩
    else if n < 13 then ⟨.cloro, 11⟩ else if n < 15 then ⟨.temperature, 13⟩
    else if n < 17 then ⟨.battery, 15⟩ else ⟨.H_HOLD, 17⟩

theorem missingFields_head? : ∀ n < 18, (missingFields n).head? = some (firstMissingField n) := by decide

section MapResponse
variable {s : State}

theorem mapResponse_of_lenient (h : s.cfg.mode = .lenient) : mapResponse s = .ok (.snapshot (snapshotOf s)) := by
  simp [mapResponse, h]

theorem mapResponse_of_strict_of_short (h : s.cfg.mode = .strict) (hlen : s.len < 18) :
    mapResponse s = .fault (.decodeError (firstMissingField s.len)) := by
  obtain ⟨rest, hrest⟩ := List.head?_eq_some_iff.1 (missingFields_head? s.len hlen)
  simp [mapResponse, h, decodeErrors_eq_missingFields, hrest]

/-- From 18 bytes on the mode makes no difference. -/
theorem mapResponse_of_complete (h : 18 ≤ s.len) : mapResponse s = .ok (.snapshot (snapshotOf s)) := by
  cases hm : s.cfg.mode <;> simp [mapResponse, hm, decodeErrors_eq_missingFields, missingFields_of_complete h]

end MapResponse

theorem exec_map_of_complete {s : State} (hp : s.phase = .descrambled) (h : 18 ≤ s.len) :
    exec .map s = .next (s.answer (.ok (.snapshot (snapshotOf s)))) := by
  rw [exec_map_of_descrambled hp, mapResponse_of_complete h]

/-! ### The statements -/

/-- Settles O26: EC and salt read the same two bytes, and the scaling of the one is `scaleSalt_eq`. -/
theorem saltIsElevenTwentiethsOfEc : Obligations.SaltIsElevenTwentiethsOfEc := fun s =>
  ⟨fun h => ⟨s.raw 5, answerField_of_ok (valueEc_of_lt h), rfl, answerField_of_ok (valueSalt_of_lt h)⟩,
    fun h => ⟨answerField_of_error (fieldI16_error h), answerField_of_error (fieldI16_map_of_le _ h)⟩⟩

/-- Settles O28: the two branches of the scaling, and in either the value is not negative. -/
theorem chlorineIsFlooredAtZero : Obligations.ChlorineIsFlooredAtZero := fun s =>
  ⟨fun h => ⟨scaleCl (s.raw 11), answerField_of_ok (valueCl_of_lt h), scaleCl_nonneg _, scaleCl_of_neg,
      scaleCl_of_nonneg⟩,
    fun h => answerField_of_error (fieldI16_map_of_le _ h)⟩

/-- Settles O29: the integer before the clamp is `roundRat` of the quotient, of which `roundRat_spec` says all. -/
theorem batteryRoundsThenClamps : Obligations.BatteryRoundsThenClamps := by
  refine fun s => ⟨fun h => ?_, fun h => answerField_of_error (fieldI16_map_of_le _ h)⟩
  obtain ⟨hnear, htie⟩ := roundRat_spec s.cfg.roundTie (battQuotient s.cfg (s.raw 15))
  exact ⟨_, _, _, answerField_of_ok (valueBatt_of_lt h), battQuotient_eq _ _, hnear, htie,
    clamp_eq_max_min _ (by decide)⟩

/-- Settles O30: the quotient is monotone one way or the other, 0 at `BATT_0` and 100 at `BATT_100`. -/
theorem batteryClampsOutsideCalibration : Obligations.BatteryClampsOutsideCalibration := by
  refine ⟨fun c raw raw' h hlt => battQuotient_strictAnti h hlt, fun s h => ?_⟩
  obtain ⟨hlo, hhi⟩ := scaleBatt_bounds s.cfg (s.raw 15)
  exact ⟨_, answerField_of_ok (valueBatt_of_lt h), hlo, hhi, fun e => by rw [e, scaleBatt_batt0],
    scaleBatt_of_ordered, scaleBatt_of_inverted⟩

/-- Settles O31: below zero the clamp makes both 0, and from zero on the two rules round alike. -/
theorem halfUpAndHalfAwayAgreeOnBattery : Obligations.HalfUpAndHalfAwayAgreeOnBattery := by
  intro c d raw h0 h100 hc hd
  have hq : battQuotient d raw = battQuotient c raw := by rw [battQuotient, battQuotient, h0, h100]
  rcases le_total (battQuotient c raw) 0 with h | h
  · rw [scaleBatt_of_quotient_nonpos h, scaleBatt_of_quotient_nonpos (hq ▸ h)]
  · rw [scaleBatt, scaleBatt, hq, hc, hd, roundRat_halfUp_eq_halfAway h]

/-- Settles O32: the two parts of the byte at 17, as numbers. -/
theorem statusFieldsSplitTheStatusByte : Obligations.StatusFieldsSplitTheStatusByte := by
  refine fun s => ⟨fun h => ?_, fun h => ⟨answerField_of_error (fieldU8_map_of_le _ h),
    answerField_of_error (fieldU8_map_of_le _ h)⟩⟩
  have hbyte := (s.mem.read 17).isLt
  refine ⟨_, _, answerField_of_ok (fieldU8_map_of_lt _ h), answerField_of_ok (fieldU8_map_of_lt _ h),
    holdBits_toNat _, ?_, backlightBit_toNat _⟩
  rw [holdBits_toNat]
  omega

/-- Settles O34, row by row of the field table: the output is a function of the row's bytes. -/
theorem fieldDependsOnItsBytesOnly : Obligations.FieldDependsOnItsBytesOnly := by
  intro s t f hf hlen hcfg hbytes hstatus
  simp only [fieldRows, List.mem_cons, List.not_mem_nil, or_false] at hf
  obtain rfl | rfl | rfl | rfl | rfl | rfl | rfl | rfl | rfl | rfl | rfl | rfl := hf
  · exact answerField_congr (fieldU8_congr .H_VER hlen (hbytes (by decide) 0 (by decide)))
  · exact answerField_congr (fieldU8_congr .H_PROD hlen (hbytes (by decide) 0 (by decide)))
  · exact answerField_congr (congrArg (Except.map scalePh) (fieldI16_congr .pH hlen (hbytes (by decide))))
  · exact answerField_congr (fieldI16_congr .EC hlen (hbytes (by decide)))
  · exact answerField_congr (congrArg (Except.map scaleSalt) (fieldI16_congr .salt hlen (hbytes (by decide))))
  · exact answerField_congr (fieldI16_congr .TDS hlen (hbytes (by decide)))
  · exact answerField_congr (congrArg (Except.map scaleOrp) (fieldI16_congr .ORP hlen (hbytes (by decide))))
  · exact answerField_congr (congrArg (Except.map scaleCl) (fieldI16_congr .cloro hlen (hbytes (by decide))))
  · exact answerField_congr (congrArg (Except.map scaleTemp) (fieldI16_congr .temperature hlen (hbytes (by decide))))
  · obtain ⟨h0, h100, htie⟩ := hcfg rfl
    have hread : fieldI16 .battery 15 t = fieldI16 .battery 15 s := fieldI16_congr .battery hlen (hbytes (by decide))
    exact answerField_congr (by rw [valueBatt, valueBatt, hread, scaleBatt_congr h0 h100 htie])
  · exact answerField_congr (fieldU8_map_congr .H_HOLD hlen (holdBits_congr (hstatus rfl)))
  · exact answerField_congr (fieldU8_map_congr .H_BKLT hlen (backlightBit_congr (hstatus rfl)))

/-- Settles O35: each output by `toOption_eq_some_iff_answerField`, the errors by the length. -/
theorem lenientMapCollectsTheFields : Obligations.LenientMapCollectsTheFields := by
  intro s hp hm
  have hu8 : Result.u8.Injective := fun _ _ => Result.u8.inj
  have hint : Result.int.Injective := fun _ _ => Result.int.inj
  have hrat : Result.rat.Injective := fun _ _ => Result.rat.inj
  refine ⟨snapshotOf s, by rw [exec_map_of_descrambled hp, mapResponse_of_lenient hm],
    toOption_eq_some_iff_answerField hu8, toOption_eq_some_iff_answerField hu8,
    toOption_eq_some_iff_answerField hrat, toOption_eq_some_iff_answerField hint,
    toOption_eq_some_iff_answerField hrat, toOption_eq_some_iff_answerField hint,
    toOption_eq_some_iff_answerField hrat, toOption_eq_some_iff_answerField hrat,
    toOption_eq_some_iff_answerField hrat, toOption_eq_some_iff_answerField hint,
    toOption_eq_some_iff_answerField hu8, toOption_eq_some_iff_answerField hu8,
    decodeErrors_eq_missingFields s⟩

/-- Settles O36: the first missing field by the length, and no missing field from 18 bytes on. -/
theorem strictMapNamesTheFirstMissingField : Obligations.StrictMapNamesTheFirstMissingField := by
  refine fun s hp hm => ⟨fun h => ?_, fun h => ⟨snapshotOf s, exec_map_of_complete hp h, ?_, ?_⟩⟩
  · rw [exec_map_of_descrambled hp, mapResponse_of_strict_of_short hm h, firstMissingField]
  · exact (decodeErrors_eq_missingFields s).trans (missingFields_of_complete h)
  · exact exec_map_of_complete (s := { s with cfg := { s.cfg with mode := .lenient } }) hp h

/-- Settles O38: every sensor is present, with the value of its rule at the scenario's raw value. -/
theorem endToEndScenarioMapsAsTheSourceSays : Obligations.EndToEndScenarioMapsAsTheSourceSays := by
  intro s hp hlen hph hec htds hcl horp htemp hbatt
  refine ⟨snapshotOf s, exec_map_of_complete hp hlen, ?_⟩
  simp (disch := omega) only [snapshotOf, valueBatt_of_lt, valueEc_of_lt, valueSalt_of_lt, valueTds_of_lt,
    valueCl_of_lt, valuePh_of_lt, valueOrp_of_lt, valueTemp_of_lt, Except.toOption, hph, hec, htds, hcl, horp, htemp,
    hbatt, scaleBatt_batt100, scaleCl_of_nonneg]
  norm_num

/-- Settles O23: the bytes at 1 and 2 on either side of their thresholds. -/
theorem headerFieldsAnswerTheirByte : Obligations.HeaderFieldsAnswerTheirByte := fun _ =>
  ⟨fun h => answerField_of_ok (fieldU8_ok h), fun h => answerField_of_error (fieldU8_error h),
    fun h => answerField_of_ok (fieldU8_ok h), fun h => answerField_of_error (fieldU8_error h)⟩

/-- Settles O24: `scalePh_eq` and `scaleTemp_eq` at the raw values. -/
theorem phAndTemperatureScaleExactly : Obligations.PhAndTemperatureScaleExactly := fun _ =>
  ⟨fun h => answerField_of_ok (valuePh_of_lt h), fun h => answerField_of_error (fieldI16_map_of_le _ h),
    fun h => answerField_of_ok (valueTemp_of_lt h), fun h => answerField_of_error (fieldI16_map_of_le _ h)⟩

/-- Settles O25: the raw values as they are read. -/
theorem ecAndTdsAreRaw : Obligations.EcAndTdsAreRaw := fun _ =>
  ⟨fun h => answerField_of_ok (valueEc_of_lt h), fun h => answerField_of_error (fieldI16_error h),
    fun h => answerField_of_ok (valueTds_of_lt h), fun h => answerField_of_error (fieldI16_error h)⟩

/-- Settles O27: `scaleOrp_eq` at the raw value. -/
theorem orpIsRawOverThousand : Obligations.OrpIsRawOverThousand := fun _ =>
  ⟨fun h => answerField_of_ok (valueOrp_of_lt h), fun h => answerField_of_error (fieldI16_map_of_le _ h)⟩

end Sys2Proof.Machine
end

section
/-! PROOFS. The family `42_sensor_mapper.md`, the binary64 view (R106). First the laws (powers of two, the number of a
pattern, the nearest integer, the binary exponent, `F64.nearest` on the normal range), then the theorems that settle the
statements. -/

namespace Sys2Proof.Machine

/-! ### Powers of two and the number of a pattern -/

/-- The model writes a power of two as a natural power above or below the fraction line. -/
theorem two_zpow_eq_div (e : Int) : (2 : Rat) ^ e = 2 ^ e.toNat / 2 ^ (-e).toNat := by
  obtain ⟨n, rfl | rfl⟩ := e.eq_nat_or_neg
  · simp
  · simp

theorem scaleByTwo_eq (m e : Int) : scaleByTwo m e = m * (2 : Rat) ^ e := by
  rw [two_zpow_eq_div, scaleByTwo]
  split
  · next h => simp [Rat.mkRat_eq_div, show (-e).toNat = 0 by omega]
  · next h => simp [Rat.mkRat_eq_div, show e.toNat = 0 by omega, div_eq_mul_inv]

/-- The significand of a pattern, the leading 1 of a normal number included. -/
def F64.significand (x : F64) : Nat := if x.exponent = 0 then x.fraction else 2 ^ 52 + x.fraction

/-- The exponent of the last place of a pattern. -/
def F64.lastPlace (x : F64) : Int := if x.exponent = 0 then -1074 else (x.exponent : Int) - 1075

theorem F64.value_eq (x : F64) : x.value =
    (if x.msb then -(x.significand : Rat) else x.significand) * 2 ^ x.lastPlace := by
  have h : x.value = scaleByTwo (if x.msb then -(x.significand : Int) else x.significand) x.lastPlace := rfl
  rw [h, scaleByTwo_eq]
  split <;> simp

theorem F64.abs_value (x : F64) : |x.value| = x.significand * (2 : Rat) ^ x.lastPlace := by
  have hpow : |(2 : Rat) ^ x.lastPlace| = 2 ^ x.lastPlace := abs_of_pos (by positivity)
  rw [F64.value_eq, abs_mul, hpow]
  split <;> simp

theorem F64.significand_lt (x : F64) : x.significand < 2 ^ 53 := by
  have h : x.fraction < 2 ^ 52 := (x.extractLsb' 0 52).isLt
  unfold F64.significand
  split <;> omega

theorem F64.value_zero : F64.value 0 = 0 := by
  have h : F64.significand 0 = 0 := rfl
  rw [F64.value_eq, h]
  simp

/-! ### The fields of a packed pattern -/

section Pack
variable {negative : Bool} {e : Int} {m : Nat}

theorem F64.msb_pack : (F64.pack negative e m).msb = negative := by
  have hfields := BitVec.msb_append (x := BitVec.ofBool negative ++ BitVec.ofNat 11 (e + 1023).toNat)
    (y := BitVec.ofNat 52 (m - 2 ^ 52))
  refine hfields.trans ?_
  rw [if_neg (by decide), BitVec.msb_append, if_neg (by decide)]
  cases negative <;> rfl

theorem F64.exponent_pack (h1 : -1022 ≤ e) (h2 : e ≤ 1023) : ((F64.pack negative e m).exponent : Int) = e + 1023 := by
  have h : (F64.pack negative e m).exponent = (e + 1023).toNat % 2 ^ 11 := by
    rw [F64.exponent, F64.pack, BitVec.extractLsb'_append_eq_of_le (by decide), BitVec.extractLsb'_append_eq_right]
    simp
  omega

theorem F64.fraction_pack (h1 : 2 ^ 52 ≤ m) (h2 : m < 2 ^ 53) : (F64.pack negative e m).fraction = m - 2 ^ 52 := by
  rw [F64.fraction, F64.pack, BitVec.extractLsb'_append_eq_right, BitVec.toNat_ofNat, Nat.mod_eq_of_lt]
  omega

theorem F64.zeroOrNormal_pack (h1 : -1022 ≤ e) (h2 : e ≤ 1023) : (F64.pack negative e m).zeroOrNormal = true := by
  have h := F64.exponent_pack (negative := negative) (m := m) h1 h2
  have hlo : 0 < (F64.pack negative e m).exponent := by omega
  have hhi : (F64.pack negative e m).exponent < 2047 := by omega
  simp [F64.zeroOrNormal, hlo, hhi]

theorem F64.value_pack (h1 : -1022 ≤ e) (h2 : e ≤ 1023) (h3 : 2 ^ 52 ≤ m) (h4 : m < 2 ^ 53) :
    (F64.pack negative e m).value = (if negative then -(m : Rat) else m) * 2 ^ (e - 52) := by
  have he := F64.exponent_pack (negative := negative) (m := m) h1 h2
  have hne : (F64.pack negative e m).exponent ≠ 0 := by omega
  have hsig : (F64.pack negative e m).significand = m := by
    rw [F64.significand, if_neg hne, F64.fraction_pack h3 h4]
    omega
  have hlast : (F64.pack negative e m).lastPlace = e - 52 := by
    rw [F64.lastPlace, if_neg hne]
    omega
  rw [F64.value_eq, F64.msb_pack, hsig, hlast]

end Pack

/-! ### The nearest integer -/

theorem nearestNat_near (num : Nat) {den : Nat} (hd : 0 < den) :
    |(nearestNat num den : Rat) - (num : Rat) / den| ≤ 1 / 2 := by
  have hnat : 2 * num ≤ 2 * (nearestNat num den * den) + den ∧ 2 * (nearestNat num den * den) ≤ 2 * num + den := by
    have hsplit : num / den * den + num % den = num := Nat.div_add_mod' num den
    have hlt : num % den < den := Nat.mod_lt num hd
    have hsucc : (num / den + 1) * den = num / den * den + den := Nat.succ_mul _ _
    unfold nearestNat
    dsimp only
    split_ifs <;> omega
  obtain ⟨hlo, hhi⟩ := hnat
  have hlo' : (2 * num : Rat) ≤ 2 * (nearestNat num den * den) + den := by exact_mod_cast hlo
  have hhi' : (2 * (nearestNat num den * den) : Rat) ≤ 2 * num + den := by exact_mod_cast hhi
  have hdq : (0 : Rat) < den := by exact_mod_cast hd
  have hscale : (nearestNat num den : Rat) - (num : Rat) / den = (nearestNat num den * den - num) / den := by
    field_simp
  rw [hscale, abs_div, abs_of_pos hdq, div_le_iff₀ hdq, abs_le]
  constructor <;> linarith

/-- An integer at most one half away is a nearest one. -/
theorem abs_sub_le_of_near {m : Int} {y : Rat} (h : |m - y| ≤ 1 / 2) (k : Int) : |m - y| ≤ |k - y| := by
  by_cases hk : k = m
  · rw [hk]
  · have hone : (1 : Rat) ≤ |(k : Rat) - m| := by exact_mod_cast Int.one_le_abs (sub_ne_zero.2 hk)
    have htri : |(k : Rat) - m| ≤ |k - y| + |y - m| := abs_sub_le _ _ _
    rw [abs_sub_comm y] at htri
    linarith

/-- A number with its last place at `e` or above is a whole number of units of `2^e`. -/
theorem mul_two_zpow_of_le {e e' : Int} (k : Nat) (h : e ≤ e') :
    (k : Rat) * 2 ^ e' = (k * 2 ^ (e' - e).toNat : Int) * 2 ^ e := by
  have hpow : (2 : Rat) ^ e' = 2 ^ (e' - e).toNat * 2 ^ e := by
    rw [← zpow_natCast, ← zpow_add₀ two_ne_zero]
    congr 1
    omega
  push_cast
  rw [hpow, mul_assoc]

/-- A number of 53 bits with its last place below `e` is at most `2^52` units of `2^e`. -/
theorem mul_two_zpow_le_of_lt {e e' : Int} {k : Nat} (hk : k < 2 ^ 53) (h : e' < e) :
    (k : Rat) * 2 ^ e' ≤ 2 ^ 52 * 2 ^ e := by
  have hk' : (k : Rat) ≤ 2 ^ 53 := by exact_mod_cast hk.le
  have hpow : (2 : Rat) ^ e' ≤ 2 ^ (e - 1) := zpow_le_zpow_right₀ one_le_two (by omega)
  calc (k : Rat) * 2 ^ e' ≤ 2 ^ 53 * 2 ^ (e - 1) := mul_le_mul hk' hpow (by positivity) (by positivity)
    _ = 2 ^ 52 * 2 ^ e := by
        rw [zpow_sub_one₀ two_ne_zero]
        ring

/-- A significand at most one half from `y ≥ 2^52` is, in units of `2^e`, as near to `y` as any number of 53 bits,
wherever that has its last place. -/
theorem abs_sub_le_of_significand {m k : Nat} {y : Rat} {e e' : Int} (hy : 2 ^ 52 ≤ y) (hm : |m - y| ≤ 1 / 2)
    (hk : k < 2 ^ 53) : |m * 2 ^ e - y * 2 ^ e| ≤ |k * 2 ^ e' - y * 2 ^ e| := by
  have hu : (0 : Rat) < 2 ^ e := by positivity
  have hnear : ∀ j : Int, |m - y| ≤ |j - y| := abs_sub_le_of_near (m := m) hm
  rcases le_or_gt e e' with h | h
  · rw [mul_two_zpow_of_le k h, ← sub_mul, ← sub_mul, abs_mul, abs_mul]
    exact mul_le_mul_of_nonneg_right (hnear _) (abs_nonneg _)
  · have hbelow : (k : Rat) * 2 ^ e' ≤ 2 ^ 52 * 2 ^ e := mul_two_zpow_le_of_lt hk h
    have hlow : |m - y| ≤ y - 2 ^ 52 := by
      have h52 := hnear (2 ^ 52)
      rwa [Int.cast_pow, Int.cast_ofNat, abs_sub_comm (2 ^ 52), abs_of_nonneg (sub_nonneg.2 hy)] at h52
    calc |m * 2 ^ e - y * 2 ^ e| = |m - y| * 2 ^ e := by rw [← sub_mul, abs_mul, abs_of_pos hu]
      _ ≤ (y - 2 ^ 52) * 2 ^ e := mul_le_mul_of_nonneg_right hlow hu.le
      _ ≤ y * 2 ^ e - k * 2 ^ e' := by linarith
      _ ≤ |k * 2 ^ e' - y * 2 ^ e| := by
        rw [abs_sub_comm]
        exact le_abs_self _

/-! ### The binary exponent -/

/-- The model's comparison, on naturals, is that of the quotient with a power of two. -/
theorem le_mul_iff_two_zpow_le {num den : Nat} (hd : 0 < den) (e : Int) :
    den * 2 ^ e.toNat ≤ num * 2 ^ (-e).toNat ↔ (2 : Rat) ^ e ≤ (num : Rat) / den := by
  have hdq : (0 : Rat) < den := by exact_mod_cast hd
  rw [two_zpow_eq_div, div_le_div_iff₀ (by positivity) hdq, mul_comm den]
  exact_mod_cast Iff.rfl

theorem binaryExponent_spec {num den : Nat} (hn : num ≠ 0) (hd : den ≠ 0) :
    (2 : Rat) ^ binaryExponent num den ≤ (num : Rat) / den
    ∧ (num : Rat) / den < 2 ^ (binaryExponent num den + 1) := by
  have hdq : (0 : Rat) < den := by exact_mod_cast Nat.pos_of_ne_zero hd
  have hnlo : (2 : Rat) ^ (num.log2 : Int) ≤ num := by exact_mod_cast Nat.log2_self_le hn
  have hnhi : (num : Rat) < 2 ^ ((num.log2 : Int) + 1) := by exact_mod_cast Nat.lt_log2_self
  have hdlo : (2 : Rat) ^ (den.log2 : Int) ≤ den := by exact_mod_cast Nat.log2_self_le hd
  have hdhi : (den : Rat) < 2 ^ ((den.log2 : Int) + 1) := by exact_mod_cast Nat.lt_log2_self
  unfold binaryExponent
  simp only [le_mul_iff_two_zpow_le (Nat.pos_of_ne_zero hd)]
  split
  · next h =>
    refine ⟨h, ?_⟩
    calc (num : Rat) / den < 2 ^ ((num.log2 : Int) + 1) / 2 ^ (den.log2 : Int) :=
          div_lt_div₀ hnhi hdlo (by positivity) (by positivity)
      _ = 2 ^ ((num.log2 : Int) - den.log2 + 1) := by
          rw [← zpow_sub₀ two_ne_zero]
          congr 1
          ring
  · next h =>
    refine ⟨?_, by simpa using h⟩
    calc (2 : Rat) ^ ((num.log2 : Int) - den.log2 - 1) = 2 ^ (num.log2 : Int) / 2 ^ ((den.log2 : Int) + 1) := by
          rw [← zpow_sub₀ two_ne_zero]
          congr 1
          ring
      _ ≤ (num : Rat) / den := div_le_div₀ (by positivity) hnlo hdq hdhi.le

/-! ### The nearest binary64 number (R106) -/

/-- The exponent of `q`'s leading binary place. -/
def leadingPlace (q : Rat) : Int := binaryExponent q.num.natAbs q.den

/-- `q`'s magnitude, rounded to 53 binary places, in units of the last of them. -/
def roundedSignificand (q : Rat) : Nat :=
  nearestNat (q.num.natAbs * 2 ^ (52 - leadingPlace q).toNat) (q.den * 2 ^ (leadingPlace q - 52).toNat)

theorem F64.nearest_zero : F64.nearest 0 = 0 := rfl

theorem abs_eq_natAbs_div_den (q : Rat) : |q| = (q.num.natAbs : Rat) / q.den := by
  conv_lhs => rw [← Rat.num_div_den q]
  rw [abs_div, Nat.abs_cast, Nat.cast_natAbs, Int.cast_abs]

/-- The magnitude of `q` in units of its last place. -/
theorem roundedSignificand_near (q : Rat) : |roundedSignificand q - |q| * 2 ^ (52 - leadingPlace q)| ≤ 1 / 2 := by
  have hscaled : |q| * 2 ^ (52 - leadingPlace q) =
      ((q.num.natAbs * 2 ^ (52 - leadingPlace q).toNat : Nat) : Rat)
        / (q.den * 2 ^ (leadingPlace q - 52).toNat : Nat) := by
    rw [two_zpow_eq_div, neg_sub, abs_eq_natAbs_div_den, div_mul_div_comm]
    push_cast
    rfl
  rw [hscaled]
  exact nearestNat_near _ (Nat.mul_pos q.den_pos (by positivity))

section Nearest
variable {q : Rat} (hq : q ≠ 0)
include hq

theorem leadingPlace_spec : (2 : Rat) ^ leadingPlace q ≤ |q| ∧ |q| < 2 ^ (leadingPlace q + 1) := by
  rw [abs_eq_natAbs_div_den]
  exact binaryExponent_spec (by simpa using hq) q.den_nz

theorem scaled_bounds : 2 ^ 52 ≤ |q| * 2 ^ (52 - leadingPlace q) ∧ |q| * 2 ^ (52 - leadingPlace q) < 2 ^ 53 := by
  obtain ⟨hlo, hhi⟩ := leadingPlace_spec hq
  have hu : (0 : Rat) < 2 ^ (52 - leadingPlace q) := by positivity
  constructor
  · calc (2 : Rat) ^ 52 = 2 ^ leadingPlace q * 2 ^ (52 - leadingPlace q) := by
          rw [← zpow_add₀ two_ne_zero, add_sub_cancel]
          rfl
      _ ≤ |q| * 2 ^ (52 - leadingPlace q) := mul_le_mul_of_nonneg_right hlo hu.le
  · calc |q| * 2 ^ (52 - leadingPlace q) < 2 ^ (leadingPlace q + 1) * 2 ^ (52 - leadingPlace q) :=
          mul_lt_mul_of_pos_right hhi hu
      _ = 2 ^ 53 := by
          rw [← zpow_add₀ two_ne_zero, show leadingPlace q + 1 + (52 - leadingPlace q) = 53 by ring]
          rfl

theorem roundedSignificand_bounds : 2 ^ 52 ≤ roundedSignificand q ∧ roundedSignificand q ≤ 2 ^ 53 := by
  obtain ⟨hlo, hhi⟩ := scaled_bounds hq
  obtain ⟨hbelow, habove⟩ := abs_le.1 (roundedSignificand_near q)
  have h1 : ((2 ^ 52 : Nat) : Rat) < (roundedSignificand q + 1 : Nat) := by
    push_cast
    linarith
  have h2 : (roundedSignificand q : Rat) < (2 ^ 53 + 1 : Nat) := by
    push_cast
    linarith
  exact ⟨Nat.lt_succ_iff.1 (Nat.cast_lt.1 h1), Nat.lt_succ_iff.1 (Nat.cast_lt.1 h2)⟩

/-- `F64.nearest` packs the rounded significand, with the carry out of it taken into the exponent. -/
theorem F64.nearest_eq_pack :
    ∃ (e : Int) (m : Nat), F64.nearest q = F64.pack (decide (q.num < 0)) e m ∧ 2 ^ 52 ≤ m ∧ m < 2 ^ 53
      ∧ leadingPlace q ≤ e ∧ e ≤ leadingPlace q + 1
      ∧ (m : Rat) * 2 ^ (e - 52) = roundedSignificand q * 2 ^ (leadingPlace q - 52) := by
  obtain ⟨hlo, hhi⟩ := roundedSignificand_bounds hq
  have hnum : q.num ≠ 0 := by simpa using hq
  have hdef : F64.nearest q = if roundedSignificand q = 2 ^ 53
      then F64.pack (decide (q.num < 0)) (leadingPlace q + 1) (2 ^ 52)
      else F64.pack (decide (q.num < 0)) (leadingPlace q) (roundedSignificand q) := if_neg hnum
  by_cases hcarry : roundedSignificand q = 2 ^ 53
  · refine ⟨leadingPlace q + 1, 2 ^ 52, by rw [hdef, if_pos hcarry], le_rfl, by decide, by omega, le_rfl, ?_⟩
    rw [hcarry, show leadingPlace q + 1 - 52 = leadingPlace q - 52 + 1 by ring, zpow_add_one₀ two_ne_zero]
    push_cast
    ring
  · exact ⟨leadingPlace q, roundedSignificand q, by rw [hdef, if_neg hcarry], hlo, by omega, le_rfl, by omega, rfl⟩

end Nearest

/-- The magnitudes from the least normal number to below the greatest power of two, so that a carry stays finite. -/
def InNormalRange (q : Rat) : Prop := (2 : Rat) ^ (-1022 : Int) ≤ |q| ∧ |q| < 2 ^ (1023 : Int)

section NormalRange
variable {q : Rat} (h : InNormalRange q)
include h

theorem InNormalRange.ne_zero : q ≠ 0 := by
  have hpos : (0 : Rat) < |q| := lt_of_lt_of_le (by positivity) h.1
  exact abs_pos.1 hpos

theorem InNormalRange.leadingPlace_bounds : -1022 ≤ leadingPlace q ∧ leadingPlace q < 1023 := by
  obtain ⟨hlo, hhi⟩ := leadingPlace_spec h.ne_zero
  have h1 : (-1022 : Int) < leadingPlace q + 1 := (zpow_lt_zpow_iff_right₀ one_lt_two).1 (h.1.trans_lt hhi)
  have h2 : leadingPlace q < (1023 : Int) := (zpow_lt_zpow_iff_right₀ one_lt_two).1 (hlo.trans_lt h.2)
  omega

theorem InNormalRange.zeroOrNormal_nearest : (F64.nearest q).zeroOrNormal = true := by
  obtain ⟨hlo, hhi⟩ := h.leadingPlace_bounds
  obtain ⟨e, m, hpack, -, -, he1, he2, -⟩ := F64.nearest_eq_pack h.ne_zero
  rw [hpack]
  exact F64.zeroOrNormal_pack (by omega) (by omega)

theorem InNormalRange.value_nearest :
    (F64.nearest q).value =
      (if q < 0 then -(roundedSignificand q : Rat) else roundedSignificand q) * 2 ^ (leadingPlace q - 52) := by
  obtain ⟨hlo, hhi⟩ := h.leadingPlace_bounds
  obtain ⟨e, m, hpack, hm1, hm2, he1, he2, hval⟩ := F64.nearest_eq_pack h.ne_zero
  rw [hpack, F64.value_pack (by omega) (by omega) hm1 hm2]
  simp only [decide_eq_true_eq, Rat.num_neg]
  split
  · rw [neg_mul, neg_mul, hval]
  · exact hval

/-- The view has the sign of `q`, so it is as far from `q` as their magnitudes are from each other. -/
theorem InNormalRange.abs_nearest_sub :
    |(F64.nearest q).value - q| = abs (roundedSignificand q * 2 ^ (leadingPlace q - 52) - |q|) := by
  rw [h.value_nearest]
  split
  · next hneg =>
    rw [abs_of_neg hneg, ← abs_neg]
    congr 1
    ring
  · next hpos => rw [abs_of_nonneg (not_lt.1 hpos)]

/-- No pattern's number is nearer to `q` than the view (R106). -/
theorem InNormalRange.nearest_le (x : F64) : |(F64.nearest q).value - q| ≤ |x.value - q| := by
  obtain ⟨hy, -⟩ := scaled_bounds h.ne_zero
  have hscale : |q| * 2 ^ (52 - leadingPlace q) * 2 ^ (leadingPlace q - 52) = |q| := by
    rw [mul_assoc, ← zpow_add₀ two_ne_zero, sub_add_sub_cancel, sub_self, zpow_zero, mul_one]
  have hmag := abs_sub_le_of_significand (e := leadingPlace q - 52) (e' := x.lastPlace) hy (roundedSignificand_near q)
    x.significand_lt
  rw [hscale, ← F64.abs_value] at hmag
  calc |(F64.nearest q).value - q| = abs (roundedSignificand q * 2 ^ (leadingPlace q - 52) - |q|) := h.abs_nearest_sub
    _ ≤ abs (|x.value| - |q|) := hmag
    _ ≤ |x.value - q| := abs_abs_sub_abs_le _ _

end NormalRange

/-! ### The rationals of R106 -/

theorem inNormalRange_of_bounds {q : Rat} (hlo : 1 / 1000 ≤ |q|) (hhi : |q| ≤ 32768) : InNormalRange q := by
  constructor
  · calc (2 : Rat) ^ (-1022 : Int) ≤ 2 ^ (-10 : Int) := zpow_le_zpow_right₀ one_le_two (by decide)
      _ ≤ 1 / 1000 := by norm_num
      _ ≤ |q| := hlo
  · calc |q| ≤ 32768 := hhi
      _ < 2 ^ (16 : Int) := by norm_num
      _ ≤ 2 ^ (1023 : Int) := zpow_le_zpow_right₀ one_le_two (by decide)

/-- A raw value other than 0, times a factor from a thousandth to one. -/
theorem inNormalRange_raw_mul {raw : Int} {c : Rat} (h1 : -32768 ≤ raw) (h2 : raw ≤ 32767) (h0 : raw ≠ 0)
    (hc1 : 1 / 1000 ≤ c) (hc2 : c ≤ 1) : InNormalRange (raw * c) := by
  have hlo : (1 : Rat) ≤ |(raw : Rat)| := by exact_mod_cast Int.one_le_abs h0
  have hhi : |(raw : Rat)| ≤ 32768 := by exact_mod_cast abs_le.2 ⟨h1, by omega⟩
  have hc : (0 : Rat) < c := lt_of_lt_of_le (by norm_num) hc1
  have habs : |raw * c| = |(raw : Rat)| * c := by rw [abs_mul, abs_of_pos hc]
  apply inNormalRange_of_bounds
  · rw [habs]
    nlinarith
  · rw [habs]
    nlinarith

theorem f64Div_eq (raw : Int) (d : Nat) : f64Div raw d = F64.nearest (raw * (1 / d)) := by
  rw [f64Div, Rat.mkRat_eq_div, mul_one_div]

theorem inv_divisor_bounds {d : Nat} (hd : d = 10 ∨ d = 100 ∨ d = 1000) :
    1 / 1000 ≤ (1 : Rat) / d ∧ (1 : Rat) / d ≤ 1 := by
  obtain rfl | rfl | rfl := hd <;> norm_num

theorem f64Salt_eq (raw : Int) : f64Salt raw = F64.nearest (raw * f64SaltFactor.value) := by
  rw [f64Salt, Rat.mkRat_eq_div, Int.cast_mul, mul_div_assoc, Rat.num_div_den]

theorem f64SaltFactor_value : f64SaltFactor.value = 4953959590107546 * 2 ^ (-53 : Int) := by
  rw [F64.value_eq]
  rfl

/-- The factor is the rounding of 0.55, and lies where `inNormalRange_raw_mul` wants it. -/
theorem f64SaltFactor_bounds : 1 / 1000 ≤ f64SaltFactor.value ∧ f64SaltFactor.value ≤ 1 := by
  rw [f64SaltFactor_value]
  norm_num

section RawValue
variable {raw : Int} (h1 : -32768 ≤ raw) (h2 : raw ≤ 32767)
include h1 h2

/-- Every view is that of zero, or of a number in the normal range. -/
theorem zeroOrNormal_nearest_raw_mul {c : Rat} (hc1 : 1 / 1000 ≤ c) (hc2 : c ≤ 1) :
    (F64.nearest (raw * c)).zeroOrNormal = true := by
  by_cases h0 : raw = 0
  · rw [h0, Int.cast_zero, zero_mul, F64.nearest_zero]
    rfl
  · exact (inNormalRange_raw_mul h1 h2 h0 hc1 hc2).zeroOrNormal_nearest

theorem zeroOrNormal_f64Div {d : Nat} (hd : d = 10 ∨ d = 100 ∨ d = 1000) : (f64Div raw d).zeroOrNormal = true := by
  obtain ⟨hc1, hc2⟩ := inv_divisor_bounds hd
  rw [f64Div_eq]
  exact zeroOrNormal_nearest_raw_mul h1 h2 hc1 hc2

end RawValue

/-! ### The statements -/

/-- Settles O56: at zero the view is exact, and elsewhere the quotient is in the normal range. -/
theorem binaryViewOfDivisionIsNearest : Obligations.BinaryViewOfDivisionIsNearest := by
  intro raw d x h1 h2 hd _
  obtain ⟨hc1, hc2⟩ := inv_divisor_bounds hd
  rw [f64Div_eq, ← mul_one_div (raw : Rat)]
  by_cases h0 : raw = 0
  · rw [h0, Int.cast_zero, zero_mul, F64.nearest_zero, F64.value_zero, sub_zero, abs_zero]
    exact abs_nonneg _
  · exact (inNormalRange_raw_mul h1 h2 h0 hc1 hc2).nearest_le x

/-- Settles O57: each view is the nearest number to the raw value times a factor, or the literal 0. -/
theorem binaryViewIsZeroOrNormal : Obligations.BinaryViewIsZeroOrNormal := by
  intro raw d h1 h2 hd
  obtain ⟨hc1, hc2⟩ := f64SaltFactor_bounds
  refine ⟨zeroOrNormal_f64Div h1 h2 hd, ?_, ?_⟩
  · rw [f64Salt_eq]
    exact zeroOrNormal_nearest_raw_mul h1 h2 hc1 hc2
  · unfold f64Cl
    split
    · rfl
    · exact zeroOrNormal_f64Div h1 h2 (.inl rfl)

end Sys2Proof.Machine
end

section
/-! PROOFS. The family `43_host_commands.md`: the frame commands and what a host is answered. First the laws (over-long
frames, the answers of each command, a host's request), then the theorems that settle the statements. -/

namespace Sys2Proof

/-! ### A host's request (R55, R58) -/

/-- What a host's request decodes to is a host command. -/
theorem opClass_of_host_request {q : Request} {i : Instr} (hq : q.issuer = .host) (h : decodeRequest q = .ok i) :
    i.opClass = .host := by
  cases hd : decode q with
  | error e => rw [decodeRequest_of_error hd] at h; cases h
  | ok j =>
    rw [decodeRequest_of_ok hd] at h
    split at h
    · next hallowed =>
      cases h
      exact hallowed.resolve_left (by simp [hq])
    · cases h

end Sys2Proof

namespace Sys2Proof.Machine

/-! ### Over-long frames (R120, R122) -/

theorem exec_load_of_too_long {r : List Byte} {s : State} (h : s.cfg.lenMax.admits r.length = false) :
    exec (.load r) s = .next (s.answer (.refused (.frameTooLong r.length))) := by
  rw [exec, execLoad, whenAdmitted_pos (admits_load _), whenFits_neg h]

theorem exec_decode_of_too_long {r : List Byte} {s : State} (h : s.cfg.lenMax.admits r.length = false) :
    exec (.decode r) s = .next (s.answer (.refused (.frameTooLong r.length))) := by
  rw [exec, execDecode, whenAdmitted_pos (admits_decode _), whenFits_neg h]

/-! ### What each command answers (R124) -/

/-- MAP's two answers (R104): a DecodeError is STRICT mode's. -/
theorem mapResponse_cases (s : State) :
    (∃ S, mapResponse s = .ok (.snapshot S))
    ∨ (s.cfg.mode = .strict ∧ ∃ e, mapResponse s = .fault (.decodeError e)) := by
  cases hm : s.cfg.mode with
  | lenient => exact .inl ⟨_, mapResponse_of_lenient hm⟩
  | strict =>
    by_cases hlen : s.len < 18
    · exact .inr ⟨rfl, _, mapResponse_of_strict_of_short hm hlen⟩
    · exact .inl ⟨_, mapResponse_of_complete (by omega)⟩

section Answers
variable (s : State)

theorem exec_load_answers (r : List Byte) : ∃ t, exec (.load r) s = .next t
    ∧ (t.response = some (.ok .done) ∨ t.response = some (.refused (.frameTooLong r.length))) := by
  cases h : s.cfg.lenMax.admits r.length with
  | true => exact ⟨_, exec_load_of_fits h, .inl rfl⟩
  | false => exact ⟨_, exec_load_of_too_long h, .inr rfl⟩

theorem exec_descr_answers : ∃ t, exec .descr s = .next t
    ∧ (t.response = some (.ok .done) ∨ t.response = some (.refused (.wrongPhase .descr s.phase))) := by
  by_cases h : s.phase = .raw
  · exact ⟨_, exec_descr_of_raw h, .inl rfl⟩
  · exact ⟨_, exec_descr_of_not_raw h, .inr rfl⟩

theorem exec_map_answers : ∃ t, exec .map s = .next t
    ∧ ((∃ S, t.response = some (.ok (.snapshot S)))
      ∨ (s.cfg.mode = .strict ∧ ∃ e, t.response = some (.fault (.decodeError e)))
      ∨ t.response = some (.refused (.wrongPhase .map s.phase))) := by
  by_cases h : s.phase = .descrambled
  · refine ⟨_, exec_map_of_descrambled h, ?_⟩
    obtain ⟨S, hS⟩ | ⟨hm, e, he⟩ := mapResponse_cases s
    · exact .inl ⟨S, congrArg some hS⟩
    · exact .inr (.inl ⟨hm, e, congrArg some he⟩)
  · exact ⟨_, exec_of_not_admitted rfl (Bool.eq_false_iff.2 (mt admits_map.1 h)), .inr (.inr rfl)⟩

theorem exec_decode_answers (r : List Byte) : ∃ t, exec (.decode r) s = .next t
    ∧ ((∃ S, t.response = some (.ok (.snapshot S)))
      ∨ (s.cfg.mode = .strict ∧ ∃ e, t.response = some (.fault (.decodeError e)))
      ∨ t.response = some (.refused (.frameTooLong r.length))) := by
  cases h : s.cfg.lenMax.admits r.length with
  | true =>
    refine ⟨_, exec_decode_of_fits h, ?_⟩
    obtain ⟨S, hS⟩ | ⟨hm, e, he⟩ := mapResponse_cases (s.loadFrame r).descrambleBuffer
    · exact .inl ⟨S, congrArg some hS⟩
    · exact .inr (.inl ⟨by simpa using hm, e, congrArg some he⟩)
  | false => exact ⟨_, exec_decode_of_too_long h, .inr (.inr rfl)⟩

theorem exec_rdi16_answers (o : Nat) : ∃ t, exec (.rdi16 o) s = .next t
    ∧ ((∃ v, t.response = some (.ok (.i16 v)) ∧ -32768 ≤ v ∧ v ≤ 32767)
      ∨ t.response = some (.fault (.outOfRange o)) ∨ t.response = some (.refused (.wrongPhase .rdi16 s.phase))) := by
  by_cases hp : s.phase = .empty
  · exact ⟨_, exec_of_not_admitted rfl (by rw [hp]; rfl), .inr (.inr rfl)⟩
  · rcases Nat.lt_or_ge (o + 1) s.len with h | h
    · exact ⟨_, exec_rdi16_of_lt hp h, .inl ⟨s.raw o, rfl, s.raw_range o⟩⟩
    · exact ⟨_, exec_rdi16_of_le hp h, .inr (.inl rfl)⟩

theorem exec_rdu8_answers (o : Nat) : ∃ t, exec (.rdu8 o) s = .next t
    ∧ ((∃ v, t.response = some (.ok (.u8 v)))
      ∨ t.response = some (.fault (.outOfRange o)) ∨ t.response = some (.refused (.wrongPhase .rdu8 s.phase))) := by
  by_cases hp : s.phase = .empty
  · exact ⟨_, exec_of_not_admitted rfl (by rw [hp]; rfl), .inr (.inr rfl)⟩
  · rcases Nat.lt_or_ge o s.len with h | h
    · exact ⟨_, exec_rdu8_of_lt hp h, .inl ⟨s.mem.read o, rfl⟩⟩
    · exact ⟨_, exec_rdu8_of_le hp h, .inr (.inl rfl)⟩

end Answers

/-- An operation that ends in a next state has answered, and has left the pending script alone (R126). -/
theorem exec_response_script {s t : State} {i : Instr} (h : exec i s = .next t) :
    (∃ r, t.response = some r) ∧ t.script = s.script := by
  obtain ⟨r, rfl, -⟩ | ⟨-, rfl⟩ | ⟨r, -, -, rfl⟩ | ⟨-, -, rfl⟩ | ⟨r, -, -, rfl⟩ | ⟨j, -, -, -, -, rfl⟩ :=
    exec_next_cases h <;> simp

/-! ### The statements -/

/-- Settles O39: the two outcomes of LOAD's operand check; the cells by `Memory.read_store_lt`. -/
theorem loadStoresTheFrame : Obligations.LoadStoresTheFrame := fun r s =>
  ⟨fun h => ⟨_, exec_load_of_fits h, rfl, rfl, fun _ hk => Memory.read_store_lt [] r hk, s.frame_loadFrame r,
      fun _ ha => readU8_error ha, rfl, rfl, rfl, rfl⟩,
    exec_load_of_too_long⟩

/-- Settles O41: no command looks at the answer before it (`exec_answer`), so each of the three finds the block DECODE
has at that point. -/
theorem decodeIsLoadDescrMap : Obligations.DecodeIsLoadDescrMap := by
  refine fun r s => ⟨fun h => ?_, exec_decode_of_too_long⟩
  have hframe : (s.loadFrame r).descrambleBuffer.frame = descramble r := by
    rw [State.frame_descrambleBuffer, State.frame_loadFrame]
  exact ⟨_, _, _, exec_load_of_fits h, (exec_answer ..).trans (exec_descr_of_raw rfl),
    (exec_answer ..).trans (exec_map_of_descrambled rfl), exec_decode_of_fits h, by simp, hframe, rfl, by simp, by simp⟩

/-- Settles O45, a lemma for each row of the table; any other code by `hostCodeOutsideCommandsIsRefused`. -/
theorem responsesAreThoseOfTheTable : Obligations.ResponsesAreThoseOfTheTable := by
  refine fun s => ⟨⟨_, execClear_eq s, rfl⟩, exec_load_answers s, exec_descr_answers s, exec_map_answers s,
    exec_decode_answers s, exec_rdi16_answers s, exec_rdu8_answers s, fun q rest hissuer hcode hscript => ?_⟩
  exact ⟨_, hostCodeOutsideCommandsIsRefused s q rest hissuer hcode hscript, rfl⟩

/-- Settles O46: a rejected request is refused, and an admitted one is a host command, of which every one answers. -/
theorem everyHostRequestIsAnswered : Obligations.EveryHostRequestIsAnswered := by
  intro s q rest hissuer hscript
  cases hq : decodeRequest q with
  | error e => exact ⟨_, _, step_of_rejected hscript hq, rfl, rfl, rfl⟩
  | ok i =>
    have hne : i ≠ .dstep := by
      rintro rfl
      cases opClass_of_host_request hissuer hq
    obtain ⟨t, ht⟩ := exec_next_of_ne_dstep { s with script := rest } hne
    obtain ⟨⟨r, hr⟩, hrest⟩ := exec_response_script ht
    exact ⟨t, r, (step_of_decoded hscript hq).trans ht, hr, hrest, exec_cfg (s := { s with script := rest }) ht⟩

/-- Settles O40: the dropped frame leaves phase EMPTY, which admits neither read, and the fields of the reset block. -/
theorem clearDropsTheFrame : Obligations.ClearDropsTheFrame := fun s =>
  ⟨_, execClear_eq s, rfl, rfl, rfl, rfl, rfl, rfl, fun _ =>
    ⟨exec_of_not_admitted rfl rfl, exec_of_not_admitted rfl rfl, fun hidx => ⟨rfl, rfl, rfl, rfl, hidx⟩⟩⟩

end Sys2Proof.Machine
end

section
/-! PROOFS. The family `60_exceptions.md`: the error answers, what they leave of the block, and several blocks.
First the laws (a field operation's answer by what its output lacks, which operations are refused and why, a step of one
block among several), then the theorems that settle the statements. -/

namespace Sys2Proof.Machine

/-! ### Field operations (R137) -/

/-- An output that is absent exactly below `n` bytes: its operation fails below `n` bytes and answers from there on. -/
theorem answerField_of_errorOf {α : Type} {result : α → Result} {v : Except DecodeError α} {s : State} {n : Nat}
    {e : DecodeError} (h : errorOf v = if s.len < n then some e else none) :
    (s.len < n → answerField result v s = .next (s.answer (.fault (.decodeError e))))
    ∧ (n ≤ s.len → ∃ r, answerField result v s = .next (s.answer (.ok r))) := by
  cases v with
  | ok x => exact ⟨fun hlt => by simp [errorOf, hlt] at h, fun _ => ⟨_, rfl⟩⟩
  | error e' =>
    refine ⟨fun hlt => ?_, fun hle => by simp [errorOf, Nat.not_lt.2 hle] at h⟩
    obtain rfl : e' = e := by simpa [errorOf, hlt] using h
    rfl

theorem answerField_ne_refused {α : Type} {result : α → Result} {v : Except DecodeError α} {s t : State}
    (h : answerField result v s = .next t) (x : CommandRefusal) : t.response ≠ some (.refused x) := by
  cases v with
  | ok v => cases h; nofun
  | error e => cases h; nofun

/-! ### Refusals (R141) -/

/-- The operand check can fail for LOAD and DECODE only (R57). -/
theorem Instr.frame_of_not_wf {c : Config} {i : Instr} (h : i.wf c = false) :
    ∃ r, (i = .load r ∨ i = .decode r) ∧ c.lenMax.admits r.length = false := by
  cases i with
  | load r => exact ⟨r, .inl rfl, h⟩
  | decode r => exact ⟨r, .inr rfl, h⟩
  | _ => cases h

theorem execDstep_ne_refused {s t : State} (h : execDstep s = .next t) (x : CommandRefusal) :
    t.response ≠ some (.refused x) := by
  unfold execDstep at h
  split at h
  · cases h
  · split at h <;> cases h
    nofun

/-- An operation of class 1 or 2 refuses nothing. -/
theorem exec_inner_ne_refused {i : Instr} {s t : State} (hi : hostCommandOf i = none) (h : exec i s = .next t)
    (x : CommandRefusal) : t.response ≠ some (.refused x) := by
  cases i with
  | dstep => exact execDstep_ne_refused h x
  | hVer | hProd | fPh | fEc | fSalt | fTds | fOrp | fCl | fTemp | fBatt | hHold | hBklt =>
    exact answerField_ne_refused h x
  | _ => cases hi

/-- Everything a refused operation can be: a host command in a phase outside its row, or a frame longer than `LEN_MAX`;
and the refusal is all that it leaves. -/
theorem exec_refused_cases {i : Instr} {s t : State} {x : CommandRefusal} (h : exec i s = .next t)
    (hx : t.response = some (.refused x)) :
    t = s.answer (.refused x)
    ∧ ((∃ c, hostCommandOf i = some c ∧ admits c s.phase = false ∧ x = .wrongPhase c s.phase)
      ∨ ∃ r, (i = .load r ∨ i = .decode r) ∧ s.cfg.lenMax.admits r.length = false ∧ x = .frameTooLong r.length) := by
  cases hc : hostCommandOf i with
  | none => exact absurd hx (exec_inner_ne_refused hc h x)
  | some c =>
    cases ha : admits c s.phase with
    | false =>
      cases (exec_of_not_admitted hc ha).symm.trans h
      cases hx
      exact ⟨rfl, .inl ⟨c, rfl, ha, rfl⟩⟩
    | true =>
      cases hw : i.wf s.cfg with
      | true =>
        obtain ⟨t', r, e, hr, -, hne⟩ := exec_of_admitted hc hw ha
        cases e.symm.trans h
        exact absurd (Option.some.inj (hr.symm.trans hx)) (hne x)
      | false =>
        obtain ⟨r, hi, hr⟩ := Instr.frame_of_not_wf hw
        have e : exec i s = .next (s.answer (.refused (.frameTooLong r.length))) := by
          obtain rfl | rfl := hi
          · exact exec_load_of_too_long hr
          · exact exec_decode_of_too_long hr
        cases e.symm.trans h
        cases hx
        exact ⟨rfl, .inr ⟨r, hi, hr, rfl⟩⟩

/-! ### Several blocks (R150) -/

/-- A step at place `k` overwrites that place with the step of what it holds, and a place that holds nothing
cannot be overwritten. -/
theorem stepInstance_eq_next_iff {k : Nat} {bs bs' : List State} :
    stepInstance k bs = .next bs' ↔ ∃ t, bs' = bs.set k t ∧ ∀ s, bs[k]? = some s → step s = .next t := by
  unfold stepInstance
  cases hk : bs[k]? with
  | none =>
    have hset (t : State) : bs.set k t = bs := List.set_eq_of_length_le (List.getElem?_eq_none_iff.1 hk)
    simp only [hset, reduceCtorEq, false_implies, implies_true, and_true, Host.Outcome.next.injEq]
    exact ⟨fun h => ⟨State.reset, h.symm⟩, fun ⟨_, h⟩ => h.symm⟩
  | some s =>
    cases hs : step s with
    | next t => simp [eq_comm, hs]
    | fault f => simp [hs]
    | refused r => simp [hs]

/-! ### The statements -/

/-- Settles O43: the two causes of a refused step, a rejected request or a refused operation (`exec_refused_cases`), and
no operation looks at the answer before it (`exec_answer`). -/
theorem refusalChangesNothing : Obligations.RefusalChangesNothing := by
  intro s t q rest x hscript hstep hx
  cases hq : decodeRequest q with
  | error e =>
    cases (step_of_rejected hscript hq).symm.trans hstep
    cases hx
    exact ⟨rfl, .inl ⟨rfl, nofun⟩, fun j => exec_answer j _ _⟩
  | ok i =>
    obtain ⟨rfl, hcause⟩ := exec_refused_cases ((step_of_decoded hscript hq).symm.trans hstep) hx
    refine ⟨rfl, .inr ?_, fun j => exec_answer j _ _⟩
    obtain ⟨c, hc, ha, rfl⟩ | ⟨r, hi, hr, rfl⟩ := hcause
    · have hna : ¬admits c s.phase = true := Bool.eq_false_iff.1 ha
      cases i with
      | descr => cases hc; exact .inl ⟨rfl, rfl, mt admits_descr.2 hna⟩
      | map => cases hc; exact .inr (.inl ⟨rfl, rfl, mt admits_map.2 hna⟩)
      | rdi16 o => cases hc; exact .inr (.inr (.inl ⟨rfl, ⟨o, rfl⟩, not_not.1 (mt admits_rdi16.2 hna)⟩))
      | rdu8 o => cases hc; exact .inr (.inr (.inr (.inl ⟨rfl, ⟨o, rfl⟩, not_not.1 (mt admits_rdu8.2 hna)⟩)))
      | clear | load | decode => cases hc; cases ha
      | _ => cases hc
    · exact .inr (.inr (.inr (.inr ⟨r, rfl, hi.imp (congrArg _) (congrArg _), hr⟩)))

/-- Settles O44, by the cases of one operation: those that change the block answer ok, DECODE in STRICT mode apart. -/
theorem errorsArePreciseButForDecode : Obligations.ErrorsArePreciseButForDecode := by
  intro s t i x h hx hne
  obtain ⟨r, rfl, -⟩ | ⟨-, rfl⟩ | ⟨r, -, -, rfl⟩ | ⟨-, -, rfl⟩ | ⟨r, rfl, -, rfl⟩ | ⟨j, -, -, -, -, rfl⟩ :=
    exec_next_cases h <;> cases hx
  · exact .inl rfl
  · exact absurd rfl (hne _)
  · exact absurd rfl (hne _)
  · exact absurd rfl (hne _)
  · obtain ⟨S, hS⟩ | ⟨hm, e, he⟩ := mapResponse_cases (s.loadFrame r).descrambleBuffer
    · exact absurd hS (hne _)
    · refine .inr ⟨r, e, rfl, he, by simpa using hm, by simp, ?_, rfl, by simp, by simp⟩
      rw [State.answer_frame, State.frame_descrambleBuffer, State.frame_loadFrame]
  · exact absurd rfl (hne _)

/-- Settles O33: every row's output is absent exactly below `offset + width` bytes, whatever the bytes are. -/
theorem fieldFailsExactlyWhenFrameTooShort : Obligations.FieldFailsExactlyWhenFrameTooShort := by
  intro s f hf
  simp only [fieldRows, List.mem_cons, List.not_mem_nil, or_false] at hf
  obtain rfl | rfl | rfl | rfl | rfl | rfl | rfl | rfl | rfl | rfl | rfl | rfl := hf
  all_goals exact answerField_of_errorOf (by
    simp only [valueVer, valueProd, valuePh, valueEc, valueSalt, valueTds, valueOrp, valueCl, valueTemp, valueBatt,
      valueHold, valueBklt, errorOf_map, errorOf_fieldU8, errorOf_fieldI16])

/-- Settles O55: a step writes its own place only (`stepInstance_eq_next_iff`), and writes to two places commute. -/
theorem instancesDoNotInterfere : Obligations.InstancesDoNotInterfere := by
  refine ⟨fun bs bs' k j h hjk => ?_, fun bs b1 b2 k j hjk h1 h2 => ?_⟩
  · obtain ⟨t, rfl, -⟩ := stepInstance_eq_next_iff.1 h
    exact List.getElem?_set_ne hjk.symm
  · obtain ⟨t, rfl, ht⟩ := stepInstance_eq_next_iff.1 h1
    obtain ⟨u, rfl, hu⟩ := stepInstance_eq_next_iff.1 h2
    rw [List.getElem?_set_ne hjk.symm] at hu
    refine ⟨bs.set j u, stepInstance_eq_next_iff.2 ⟨u, rfl, hu⟩, stepInstance_eq_next_iff.2 ⟨t, ?_, ?_⟩⟩
    · exact List.set_comm t u hjk.symm
    · rwa [List.getElem?_set_ne hjk]

/-- Settles O3: construction tests the pair it is given. -/
theorem degenerateCalibrationBuildsNoBlock : Obligations.DegenerateCalibrationBuildsNoBlock := by
  refine fun b0 b100 m r l => ⟨fun heq => ?_, fun hne => ⟨⟨b0, b100, m, r, l, hne⟩, ?_, rfl, rfl, rfl, rfl, rfl⟩⟩
  · rw [construct, dif_neg (not_not.2 heq)]
  · rw [construct, dif_pos hne]

end Sys2Proof.Machine
end

section
/-! PROOFS. The family `70_reset_and_hazards.md`: the order LOAD, DESCR, MAP before each decode. First the laws of a served
request, then the theorem that settles the statement. -/

namespace Sys2Proof.Machine

/-! ### A served request (R125, R126) -/

/-- A host that waits for each answer has nothing else pending: its request is the operation performed with no script. -/
theorem serve_encode_of_next {s t : State} {i : Instr} (h : exec i { s with script := [] } = .next t) :
    serve s (encode i) = t := by
  have hstep : step { s with script := [encode i] } = .next t :=
    (step_of_decoded rfl (decodeRequest_encode i)).trans h
  rw [serve, hstep]

/-- A block that has served a request has no script left to take away. -/
theorem withScript_nil_of_exec {s t : State} {i : Instr} (h : exec i { s with script := [] } = .next t) :
    { t with script := [] } = t := by
  have hscript : t.script = [] := (exec_response_script h).2
  rw [← hscript]

/-! ### The statements -/

/-- Settles O54: served one after another, the three requests are the operations of `decodeIsLoadDescrMap`, which end in
the very state DECODE ends in. -/
theorem loadDescrMapServesAsDecode : Obligations.LoadDescrMapServesAsDecode := by
  intro s r hr
  obtain ⟨t1, t2, t3, h1, h2, h3, hdecode, -⟩ := (decodeIsLoadDescrMap r { s with script := [] }).1 hr
  rw [← withScript_nil_of_exec h1] at h2
  rw [← withScript_nil_of_exec h2] at h3
  obtain ⟨⟨x, hx⟩, -⟩ := exec_response_script h3
  obtain ⟨hload, hraw⟩ : t1.response = some (.ok .done) ∧ t1.phase = .raw := by
    cases h1.symm.trans (exec_load_of_fits hr)
    exact ⟨rfl, rfl⟩
  have hdescr : t2.response = some (.ok .done) := by
    cases h2.symm.trans (exec_descr_of_raw hraw)
    rfl
  refine ⟨x, ?_, ?_, ?_⟩
  · simp only [responses, serve_encode_of_next h1, serve_encode_of_next h2, serve_encode_of_next h3, hload, hdescr,
      hx]
  · simp only [responses, serve_encode_of_next hdecode, hx]
  · simp only [afterScript, List.foldl_cons, List.foldl_nil, serve_encode_of_next h1, serve_encode_of_next h2,
      serve_encode_of_next h3, serve_encode_of_next hdecode]
    exact ⟨rfl, rfl, rfl, rfl, rfl⟩

end Sys2Proof.Machine
end
